-- ==== Sys2Proof/Word.lean ====
section
/-! DEFINITION. The register word and the memory byte of FPACC. -/

namespace Sys2Proof

/-- A 32-bit register or command word (10_state R25, 30_encoding R81). -/
abbrev Word := BitVec 32

/-- One byte of memory (20_memory R60). -/
abbrev Byte := BitVec 8

end Sys2Proof
end

