-- ==== Sys2Proof/Syntax.lean ====
section
/-! DEFINITION. The eight commands (30_encoding R82). A command word carries no operand (R81, R86). -/

namespace Sys2Proof

/-- One constructor per row of spec/opcode_table.json. -/
inductive Instr where
  | nop    -- R141
  | clr    -- R142
  | step1  -- R143
  | step4  -- R144
  | cvt1   -- R145
  | cvt4   -- R146
  | run1   -- R183
  | run4   -- R184
  deriving DecidableEq, Repr

end Sys2Proof
end

