-- ==== Sys2Proof/WellFormed.lean ====
section
/-! DEFINITION. Which commands and which host register transactions exist. -/

namespace Sys2Proof

/-- Whether a command exists in a build with `VEC_PRESENT = vec` (30_encoding R82, column "needs VEC_PRESENT = 1"). -/
def Instr.wellFormed (vec : Bool) : Instr → Bool
  | .nop   => true
  | .clr   => true
  | .step1 => true
  | .step4 => vec
  | .cvt1  => true
  | .cvt4  => vec
  | .run1  => true
  | .run4  => vec

/-- Whether a host register access of `size` bytes at offset `off` is a register transaction: 32 bits at a
4-byte-aligned offset, nothing else (30_encoding R84). -/
def registerAccessDefined (off : Byte) (size : Nat) : Bool :=
  size == 4 && off.toNat % 4 == 0

end Sys2Proof
end

