-- ==== Sys2Proof/Decode.lean ====
section
/-! DEFINITION. Decoding and encoding of command words (30_encoding R81 to R85), the assembler's mnemonics (R88),
and the host's view of the opcode table. -/

namespace Sys2Proof

/-- Why a command word is illegal: the three conditions of 30_encoding R83. -/
inductive IllegalWord where
  /-- `w[31:8] != 0` -/
  | reservedBitsSet
  /-- `w[7:0] >= 0x08` -/
  | reservedOpcode
  /-- a 4-wide command in a build with `VEC_PRESENT = 0` -/
  | vectorAbsent
  deriving DecidableEq, Repr

/-- The opcode field `OP = w[7:0]` (R81). -/
def opField (w : Word) : Byte := w.extractLsb' 0 8

/-- The reserved field `RSV = w[31:8]` (R81). -/
def rsvField (w : Word) : BitVec 24 := w.extractLsb' 8 24

/-- The command of an opcode, whatever the build (R82). -/
def opcodeInstr (op : Byte) : Option Instr :=
  match op.toNat with
  | 0x00 => some .nop
  | 0x01 => some .clr
  | 0x02 => some .step1
  | 0x03 => some .step4
  | 0x04 => some .cvt1
  | 0x05 => some .cvt4
  | 0x06 => some .run1
  | 0x07 => some .run4
  | _    => none

/-- `decode(w)` of 30_encoding R85, total, in a build with `VEC_PRESENT = vec`; an illegal word is rejected by name. -/
def decode (vec : Bool) (w : Word) : Except IllegalWord Instr :=
  if rsvField w ≠ 0 then .error .reservedBitsSet
  else
    match opcodeInstr (opField w) with
    | none   => .error .reservedOpcode
    | some i => if i.wellFormed vec then .ok i else .error .vectorAbsent

/-- The match value of each command (R82). -/
def encode : Instr → Word
  | .nop   => 0x00000000#32
  | .clr   => 0x00000001#32
  | .step1 => 0x00000002#32
  | .step4 => 0x00000003#32
  | .cvt1  => 0x00000004#32
  | .cvt4  => 0x00000005#32
  | .run1  => 0x00000006#32
  | .run4  => 0x00000007#32

/-- The assembler's name of a command (R88). -/
def Instr.mnemonic : Instr → String
  | .nop   => "NOP"
  | .clr   => "CLR"
  | .step1 => "STEP1"
  | .step4 => "STEP4"
  | .cvt1  => "CVT1"
  | .cvt4  => "CVT4"
  | .run1  => "RUN1"
  | .run4  => "RUN4"

/-- What the assembler reads from a mnemonic: upper case, no operands (R88). -/
def Instr.ofMnemonic (m : String) : Option Instr :=
  [Instr.nop, .clr, .step1, .step4, .cvt1, .cvt4, .run1, .run4].find? fun i => i.mnemonic == m

/-- The command word the assembler emits for a mnemonic (R88: "The assembler emits the match value of rule R82"). -/
def assemble (m : String) : Option Word := (Instr.ofMnemonic m).map encode

/-- The command word given by the low `nbits` bits of `w`, every bit above them 0. -/
def tableWord (nbits w : Nat) : Word := BitVec.ofNat 32 (w % 2 ^ nbits)

/-- What the decoder reads from the word whose bits are `w`, in the build that has every command
(`VEC_PRESENT = 1`; log 2). A number with a bit above bit 31 is no command word. -/
def decodeTableWord (nbits w : Nat) : Option Instr :=
  if w % 2 ^ nbits < 2 ^ 32 then
    match decode true (tableWord nbits w) with
    | .ok i    => some i
    | .error _ => none
  else none

end Sys2Proof
end

