-- ==== Sys2Proof/Machine/Float.lean ====
section
/-! DEFINITION. binary32 patterns and the arithmetic primitives of 40_datapath.md R100 to R107, computed exactly on
integers (log 11). A finite magnitude is counted in units of `2^-149`, the spacing of the subnormals. -/

namespace Sys2Proof.Machine

open Sys2Proof

/-- `+0.0` (R100) -/
def posZero : Word := 0x00000000#32
/-- `-0.0` (R100) -/
def negZero : Word := 0x80000000#32
/-- `1.0` (R100) -/
def one : Word := 0x3F800000#32
/-- `255.0` (R100) -/
def scale255 : Word := 0x437F0000#32
/-- `255.5` (R100) -/
def scale255half : Word := 0x437F8000#32
/-- `qNaN_c`, the one NaN that arithmetic produces (R103) -/
def qNaN : Word := 0x7FC00000#32
/-- `+∞` (R100) -/
def posInf : Word := 0x7F800000#32
/-- `-∞` (R100) -/
def negInf : Word := 0xFF800000#32

/-- The sign `s = p[31]` (R100). -/
def signBit (p : Word) : Bool := p.getLsbD 31

/-- The biased exponent `E = p[30:23]` (R100). -/
def expField (p : Word) : Nat := (p.extractLsb' 23 8).toNat

/-- The fraction `T = p[22:0]` (R100). -/
def fracField (p : Word) : Nat := (p.extractLsb' 0 23).toNat

/-- `E = 255`, `T != 0` (R100). -/
def isNaN (p : Word) : Bool := expField p == 255 && fracField p != 0

/-- `E = 255`, `T = 0` (R100). -/
def isInf (p : Word) : Bool := expField p == 255 && fracField p == 0

/-- `E < 255`: neither an infinity nor a NaN (R100). -/
def isFinite (p : Word) : Bool := expField p != 255

/-- The magnitude of a finite pattern, in units of `2^-149` (R100). -/
def mag (p : Word) : Nat :=
  if expField p = 0 then fracField p else (2 ^ 23 + fracField p) * 2 ^ (expField p - 1)

/-- The value of a finite pattern, in units of `2^-149` (R100). -/
def val (p : Word) : Int := if signBit p then -(mag p : Int) else (mag p : Int)

/-- The zero of a sign (R100). -/
def zeroOf (neg : Bool) : Word := if neg then negZero else posZero

/-- The infinity of a sign (R100). -/
def infOf (neg : Bool) : Word := if neg then negInf else posInf

/-- The pattern of sign `neg`, exponent field `e` and fraction `t` (R100). -/
def packFields (neg : Bool) (e t : Nat) : Word :=
  BitVec.ofBool neg ++ BitVec.ofNat 8 e ++ BitVec.ofNat 23 t

/-- `bits32` of the value `v * 2^-149` with sign `neg`, for a `v` that is a binary32 magnitude: subnormal below `2^23`,
else normal with `floor(log2 v) = 23 + (E - 1)` (R100). -/
def bits32 (neg : Bool) (v : Nat) : Word :=
  if v < 2 ^ 23 then packFields neg 0 v
  else packFields neg (v.log2 - 22) (v / 2 ^ (v.log2 - 23) - 2 ^ 23)

/-- `q = floor(n / 2^d)` rounded to nearest, ties to even (R102 steps 3 and 4; R107). -/
def roundHalfEven (n d : Nat) : Nat :=
  let q := n / 2 ^ d
  let f := n % 2 ^ d
  if 2 * f > 2 ^ d ∨ (2 * f = 2 ^ d ∧ q % 2 = 1) then q + 1 else q

/-- The exponent of the spacing `u` of binary32 values at `n * 2^-(149 + sh)`, counted in those units: `u = 2^(e - 23)`
with `e = max(floor(log2 a), -126)` (R102 steps 1 and 2). -/
def ulpShift (n sh : Nat) : Nat := max (n.log2 - 23) sh

/-- `round32` of the nonzero real `± n * 2^-(149 + sh)` (R102). -/
def round32 (neg : Bool) (n sh : Nat) : Word :=
  let d := ulpShift n sh
  let v := roundHalfEven n d * 2 ^ (d - sh)
  if v ≥ 2 ^ 277 then infOf neg
  else if v = 0 then zeroOf neg
  else bits32 neg v

/-- `fadd(a, b)` (R103). -/
def fadd (a b : Word) : Word :=
  if isNaN a || isNaN b then qNaN
  else if isInf a && isInf b && signBit a != signBit b then qNaN
  else if isInf a then a
  else if isInf b then b
  else
    let r := val a + val b
    if r = 0 then (if a = negZero ∧ b = negZero then negZero else posZero)
    else round32 (decide (r < 0)) r.natAbs 0

/-- `fabs(a)`: the sign bit cleared (R104). -/
def fabs (a : Word) : Word := a &&& 0x7FFFFFFF#32

/-- `clamp1(a)` of an operand with sign bit 0 (R105). -/
def clamp1 (a : Word) : Word :=
  if isNaN a then one
  else if isInf a then one
  else if mag a < mag one then a
  else one

/-- `fmul(c, S)` of a clamped `c` and a scale `S` (R106); the exact product is counted in units of `2^-298`. -/
def fmul (c s : Word) : Word :=
  if c = posZero then posZero else round32 false (mag c * mag s) 149

/-- `cvt_int(p, rnd)` of a nonnegative finite `p` (R107). -/
def cvtInt (p : Word) (rnd : Bool) : Nat :=
  if rnd then roundHalfEven (mag p) 149 else mag p / 2 ^ 149

end Sys2Proof.Machine
end

