-- ==== Sys2Proof/Config.lean ====
section
/-! DEFINITION. What is fixed for every FPACC: the sizes of 00_scope R5, and the model's choice of what a byte
of memory that nothing has written reads as (log 4). The OPEN parameters VEC_PRESENT and BUS_ERR are plain data
of the state (log 2, log 3), so that a claim about every state is a claim about every build and platform. -/

namespace Sys2Proof

/-- The lanes of the 4-wide datapath (00_scope R5, `LANES`). -/
def Config.lanes : Nat := 4

/-- The number of byte addresses of memory space: `ADDR_W` = 32 (00_scope R5, 20_memory R60). -/
def Config.memSize : Nat := 2 ^ 32

/-- What an address that the memory list does not name reads as.
DESIGN CHOICE, unsafe (log 4): the spec gives memory no contents. -/
def Config.unlistedByte : Byte := 0x00#8

end Sys2Proof
end

