-- ==== Sys2Proof/Machine/State.lean ====
section
/-! DEFINITION. The state of one FPACC instance, its platform, and its host (10_state.md, 20_memory.md R60, 00_scope.md R5, R8). -/

namespace Sys2Proof.Machine

open Sys2Proof

/-- `CFG` (10_state R27). `scale = true` is 255.5, `rnd = true` is round to nearest. Bits 31:2 hold nothing. -/
structure Cfg where
  scale : Bool
  rnd   : Bool
  deriving DecidableEq, Repr

/-- The error codes of 60_exceptions R201. Codes 7 to 15 are never produced. -/
inductive ErrCode where
  | noError | illegal | align | range | overlap | busErrRead | busErrWrite
  deriving DecidableEq, Repr

/-- `STATUS` (10_state R28). Bits 31:8 hold nothing. -/
structure Status where
  busy  : Bool
  done  : Bool
  err   : Bool
  wign  : Bool
  ecode : ErrCode
  deriving DecidableEq, Repr

/-- Four 32-bit lanes: `XIN[0..3]` or `PFX[0..3]` (10_state R32, R34). -/
structure Lanes where
  l0 : Word
  l1 : Word
  l2 : Word
  l3 : Word
  deriving DecidableEq, Repr

/-- The hidden field `RKIND` (10_state R41). -/
inductive RunKind where
  | run1 | run4
  deriving DecidableEq, Repr

/-- The register names of the map of 10_state R25. -/
inductive Reg where
  | cap | cfg | status | cmd | acc | src | dst | len
  | xin0 | xin1 | xin2 | xin3 | xout | pfx0 | pfx1 | pfx2 | pfx3 | pos | faddr
  deriving DecidableEq, Repr

/-- The direction of a memory-port request (00_scope R5, `BUS_ERR(addr, size, dir)`). -/
inductive Dir where
  | read | write
  deriving DecidableEq, Repr

/-- One record of the platform predicate `BUS_ERR` (log 3): a request of `size` bytes in direction `dir` at any
first address from `lo` to `hi` is answered `BusError`. -/
structure BusErrRule where
  lo   : Nat
  hi   : Nat
  size : Nat
  dir  : Dir
  deriving DecidableEq, Repr

/-- The two agents (00_scope R8). -/
inductive Agent where
  | host | seq
  deriving DecidableEq, Repr

/-- One operation of the HOST agent: what a host program of 30_encoding R89 is made of, the host's own memory
accesses and reset (00_scope R8). -/
inductive HostOp where
  /-- `RD(off)`, an access of `size` bytes (30_encoding R84) -/
  | rd (off : Byte) (size : Nat)
  /-- `WR(off, d)`, an access of `size` bytes (30_encoding R84) -/
  | wr (off : Byte) (size : Nat) (d : Word)
  /-- `POLL <REG>.<FIELD> == <v>`, the field of `width` bits from bit `lo` (30_encoding R89) -/
  | poll (off : Byte) (lo width v : Nat)
  /-- the host reads a byte of memory by its own means (20_memory R60; log 10) -/
  | memRd (addr : Word)
  /-- the host writes a byte of memory by its own means (20_memory R60; log 10) -/
  | memWr (addr : Word) (b : Byte)
  /-- the host or platform asserts reset (70_reset R230) -/
  | reset
  deriving DecidableEq, Repr

/-- A value one of the host's reads returned (30_encoding R89, "the program notes the value returned"; log 6). -/
inductive HostRead where
  | reg (off : Byte) (v : Word)
  | mem (addr : Word) (b : Byte)
  deriving DecidableEq, Repr

/-- The buffers of a stream command, from SRC, DST and LEN at its acceptance (42_stream R175): the input
`[src, src + 4*len)` and the output `[dst, dst + len)`. -/
structure Buffers where
  src : Word
  dst : Word
  len : Word
  deriving DecidableEq, Repr

/-- Memory: the bytes that differ from what an unlisted address reads as, by rising address (20_memory R60). -/
abbrev Memory := List Host.Cell

/-- Everything the spec gives the machine; INVENTORY.md names each field's rule. -/
structure State where
  capVec   : Bool
  cfg      : Cfg
  status   : Status
  acc      : Word
  src      : Word
  dst      : Word
  len      : Word
  xin      : Lanes
  xout     : Word
  pfx      : Lanes
  pos      : Word
  faddr    : Word
  rkind    : RunKind
  mem      : Memory
  busErr   : List BusErrRule
  hostProg : List HostOp
  turns    : List Agent
  reads    : List HostRead
  /-- The MODEL's own field (log 5): the buffers of the accepted stream commands whose end no STATUS read has shown yet,
  newest first. A host access to one of them is a race (70_reset R236). -/
  openRuns : List Buffers
  deriving DecidableEq, Repr

/-- Why the machine stops. No command raises one. -/
inductive Fault where
  /-- Raised by a host write to byte `addr` of the input of a stream command, from its acceptance to the STATUS read that
  returns BUSY = 0: a race (20_memory R70 item 4, 70_reset R236). Safe: 93 U12 lets a model treat it as a fault (log 5). -/
  | raceOnInput (addr : Word)
  /-- Raised by a host access to byte `addr` of the output of a stream command, from its acceptance to the STATUS read that
  returns BUSY = 0: a race (20_memory R70 item 4, 70_reset R236). Safe: 93 U12 lets a model treat it as a fault (log 5). -/
  | raceOnOutput (addr : Word)
  /-- Raised by a SEQ unit whose request is of no form the port admits, or reaches an address at or above `2^32`
  (20_memory R60, R64, R65). Safe: no state that meets the model's invariant raises it (log 8). -/
  | portRequestNotAdmitted (addr size : Nat) (dir : Dir)
  deriving DecidableEq, Repr

/-- Why a step has no meaning in the model. -/
inductive Refusal where
  /-- Raised by `exec` for a command with no meaning yet. Safe. No arm raises it. -/
  | notModelled (mnemonic : String)
  /-- Raised by a host register access that is not 32 bits at a 4-byte-aligned offset (30_encoding R84:
  "outside this spec, and a model refuses it"). Safe (log 7). -/
  | registerAccessUndefined (off : Byte) (size : Nat)
  deriving DecidableEq, Repr

/-- What a meaning answers. -/
abbrev Result := Host.Outcome State Fault Refusal

/-- The machine right after reset (70_reset R230), in a build with every command, on a platform that never answers
`BusError`, with nothing written to memory and a host with nothing to do (DESIGN CHOICE: log 1, 2, 3, 4, 5, 6, 13). -/
def State.reset : State where
  capVec   := true
  cfg      := { scale := false, rnd := false }
  status   := { busy := false, done := false, err := false, wign := false, ecode := .noError }
  acc      := 0x00000000#32
  src      := 0x00000000#32
  dst      := 0x00000000#32
  len      := 0x00000000#32
  xin      := { l0 := 0x00000000#32, l1 := 0x00000000#32, l2 := 0x00000000#32, l3 := 0x00000000#32 }
  xout     := 0x00000000#32
  pfx      := { l0 := 0x00000000#32, l1 := 0x00000000#32, l2 := 0x00000000#32, l3 := 0x00000000#32 }
  pos      := 0x00000000#32
  faddr    := 0x00000000#32
  rkind    := .run1
  mem      := []
  busErr   := []
  hostProg := []
  turns    := []
  reads    := []
  openRuns := []

end Sys2Proof.Machine
end

