-- ==== Sys2Proof/Machine/Datapath.lean ====
section
/-! DEFINITION. The datapath of 40_datapath.md R108 to R113: the clamp-and-scale converter, the 4-wide scan, the byte
packing, and the two accumulator steps. Pure functions of their operands and of `CFG`. -/

namespace Sys2Proof.Machine

open Sys2Proof

/-- The scale constant `S` that `CFG.SCALE` selects (R108, 10_state R27). -/
def scaleOf (cfg : Cfg) : Word := if cfg.scale then scale255half else scale255

/-- The product `p` that the converter converts (R108). -/
def scaled (x : Word) (cfg : Cfg) : Word := fmul (clamp1 (fabs x)) (scaleOf cfg)

/-- `conv8(x, cfg)`, saturating at 255 (R108). -/
def conv8 (x : Word) (cfg : Cfg) : Byte := BitVec.ofNat 8 (min (cvtInt (scaled x cfg) cfg.rnd) 255)

/-- `step1(acc, x, cfg)`: the new accumulator and the output byte (R109). -/
def step1 (acc x : Word) (cfg : Cfg) : Word × Byte :=
  let a := fadd acc x
  (a, conv8 a cfg)

/-- Stage 1 of `scan4`: shift by 1 lane, +0.0 shifted in, and add (R110). -/
def scanStage1 (v : Lanes) : Lanes where
  l0 := fadd v.l0 posZero
  l1 := fadd v.l1 v.l0
  l2 := fadd v.l2 v.l1
  l3 := fadd v.l3 v.l2

/-- Stage 2 of `scan4`: shift by 2 lanes, +0.0 shifted in, and add (R110). -/
def scanStage2 (s : Lanes) : Lanes where
  l0 := fadd s.l0 posZero
  l1 := fadd s.l1 posZero
  l2 := fadd s.l2 s.l0
  l3 := fadd s.l3 s.l1

/-- Stage 3 of `scan4`: add the broadcast carry (R110). -/
def scanStage3 (s : Lanes) (off : Word) : Lanes where
  l0 := fadd s.l0 off
  l1 := fadd s.l1 off
  l2 := fadd s.l2 off
  l3 := fadd s.l3 off

/-- `scan4(v, off)` (R110). -/
def scan4 (v : Lanes) (off : Word) : Lanes := scanStage3 (scanStage2 (scanStage1 v)) off

/-- `pack4(b0, b1, b2, b3) = {b3, b2, b1, b0}` (R112). -/
def pack4 (b0 b1 b2 b3 : Byte) : Word := b3 ++ b2 ++ b1 ++ b0

/-- The four converters, one per lane, packed (R108, R112, 41 R146). -/
def convLanes (v : Lanes) (cfg : Cfg) : Word :=
  pack4 (conv8 v.l0 cfg) (conv8 v.l1 cfg) (conv8 v.l2 cfg) (conv8 v.l3 cfg)

/-- `step4(acc, v, cfg)`: the new accumulator, the prefix lanes and the packed bytes (R111, R113). -/
def step4 (acc : Word) (v : Lanes) (cfg : Cfg) : Word × Lanes × Word :=
  let w := scan4 v acc
  (w.l3, w, convLanes w cfg)

end Sys2Proof.Machine
end

