-- ==== Sys2Proof/Machine/Flags.lean ====
section
/-! DEFINITION. The status bits: how each is set, cleared and read (10_state.md R28, R39, R40, 60_exceptions.md R201, R204).
No arithmetic event touches one (10_state R23, 40_datapath R118). -/

namespace Sys2Proof.Machine

open Sys2Proof

/-- The 4-bit code of an error (60_exceptions R201). -/
def ErrCode.bits : ErrCode → BitVec 4
  | .noError     => 0#4
  | .illegal     => 1#4
  | .align       => 2#4
  | .range       => 3#4
  | .overlap     => 4#4
  | .busErrRead  => 5#4
  | .busErrWrite => 6#4

/-- `STATUS` as read (10_state R28). -/
def Status.word (t : Status) : Word :=
  0#24 ++ t.ecode.bits ++ BitVec.ofBool t.wign ++ BitVec.ofBool t.err ++ BitVec.ofBool t.done ++ BitVec.ofBool t.busy

/-- Latching error code `e`: only the first error since ERR was last 0 is recorded (60_exceptions R204). -/
def Status.latch (e : ErrCode) (t : Status) : Status :=
  if t.err then t else { t with err := true, ecode := e }

/-- A host write of `d` to STATUS: write one to clear DONE, ERR with ECODE, and WIGN (10_state R39). -/
def Status.writeOneToClear (d : Word) (t : Status) : Status where
  busy  := t.busy
  done  := t.done && !d.getLsbD 1
  err   := t.err && !d.getLsbD 2
  ecode := if d.getLsbD 2 then .noError else t.ecode
  wign  := t.wign && !d.getLsbD 3

/-- A host write was ignored because BUSY = 1 (10_state R40, 60_exceptions R218). -/
def Status.noteIgnoredWrite (t : Status) : Status := { t with wign := true }

/-- A stream command is accepted: DONE <- 0, BUSY <- 1 (42_stream R175). -/
def Status.start (t : Status) : Status := { t with done := false, busy := true }

/-- A stream command ends: BUSY <- 0, DONE <- 1 (42_stream R180, R181). -/
def Status.finish (t : Status) : Status := { t with busy := false, done := true }

end Sys2Proof.Machine
end

