-- ==== Sys2Proof/Machine/Operands.lean ====
section
/-! DEFINITION. Where operands come from: the register map, lanes, byte order, and the addresses of a stream command
(10_state.md R25 to R27, 20_memory.md R61, 30_encoding.md R84, R86). -/

namespace Sys2Proof.Machine

open Sys2Proof

/-- The byte offset of each register in the window (10_state R25). -/
def Reg.offset : Reg → Byte
  | .cap    => 0x00#8
  | .cfg    => 0x04#8
  | .status => 0x08#8
  | .cmd    => 0x0C#8
  | .acc    => 0x10#8
  | .src    => 0x14#8
  | .dst    => 0x18#8
  | .len    => 0x1C#8
  | .xin0   => 0x20#8
  | .xin1   => 0x24#8
  | .xin2   => 0x28#8
  | .xin3   => 0x2C#8
  | .xout   => 0x30#8
  | .pfx0   => 0x34#8
  | .pfx1   => 0x38#8
  | .pfx2   => 0x3C#8
  | .pfx3   => 0x40#8
  | .pos    => 0x44#8
  | .faddr  => 0x48#8

/-- The registers in the order of the map (10_state R25). -/
def Reg.all : List Reg :=
  [.cap, .cfg, .status, .cmd, .acc, .src, .dst, .len, .xin0, .xin1, .xin2, .xin3, .xout,
   .pfx0, .pfx1, .pfx2, .pfx3, .pos, .faddr]

/-- The register at an aligned offset; none at 0x4C to 0xFC, which is unmapped (10_state R25, R37). -/
def Reg.atOffset (off : Byte) : Option Reg := Reg.all.find? fun r => r.offset == off

/-- The registers whose host writes are ignored, with WIGN set, while BUSY = 1 (10_state R40). -/
def Reg.lockedWhileBusy : Reg → Bool
  | .cfg | .cmd | .acc | .src | .dst | .len | .xin0 | .xin1 | .xin2 | .xin3 => true
  | .cap | .status | .xout | .pfx0 | .pfx1 | .pfx2 | .pfx3 | .pos | .faddr => false

/-- Lane `i` of four lanes, for `i` in 0..3 (00_scope R11). -/
def Lanes.lane (v : Lanes) (i : Nat) : Word :=
  match i with
  | 0 => v.l0
  | 1 => v.l1
  | 2 => v.l2
  | _ => v.l3

/-- Byte `j` of a word, `v[8j+7:8j]` (00_scope R12). -/
def wordByte (v : Word) (j : Nat) : Byte := v.extractLsb' (8 * j) 8

/-- The four bytes of a word as memory holds them, lowest address first (20_memory R61). -/
def wordBytes (v : Word) : List Byte := [wordByte v 0, wordByte v 1, wordByte v 2, wordByte v 3]

/-- The word whose bytes, lowest address first, are `b0 b1 b2 b3` (20_memory R61). -/
def wordOfBytes (b0 b1 b2 b3 : Byte) : Word := b3 ++ b2 ++ b1 ++ b0

/-- Word `i` of a list of bytes: the element of the four bytes from byte `4i` (42 R178, R179). -/
def wordAt (bs : List Byte) (i : Nat) : Word :=
  wordOfBytes (bs.getD (4 * i) 0) (bs.getD (4 * i + 1) 0) (bs.getD (4 * i + 2) 0) (bs.getD (4 * i + 3) 0)

/-- The four elements of a 16-byte block read (42 R179). -/
def lanesOfBytes (bs : List Byte) : Lanes where
  l0 := wordAt bs 0
  l1 := wordAt bs 1
  l2 := wordAt bs 2
  l3 := wordAt bs 3

/-- The address of input element `k`, `SRC + 4k`, a mathematical integer (30_encoding R86). -/
def elementAddr (s : State) (k : Nat) : Nat := s.src.toNat + 4 * k

/-- The address of input block `b`, `SRC + 16b` (42 R179). -/
def blockAddr (s : State) (b : Nat) : Nat := s.src.toNat + 16 * b

/-- The address of output byte `k`, `DST + k` (30_encoding R86). -/
def outputAddr (s : State) (k : Nat) : Nat := s.dst.toNat + k

/-- Whether address `a` is in the input `[src, src + 4*len)` (42 R174). -/
def Buffers.inInput (b : Buffers) (a : Nat) : Bool :=
  decide (b.src.toNat ≤ a) && decide (a < b.src.toNat + 4 * b.len.toNat)

/-- Whether address `a` is in the output `[dst, dst + len)` (42 R174). -/
def Buffers.inOutput (b : Buffers) (a : Nat) : Bool :=
  decide (b.dst.toNat ≤ a) && decide (a < b.dst.toNat + b.len.toNat)

/-- The buffers that SRC, DST and LEN name. -/
def State.buffers (s : State) : Buffers := ⟨s.src, s.dst, s.len⟩

/-- Whether address `a` is in the input range `[SRC, SRC + 4*LEN)` (42 R174). -/
def inInputRange (s : State) (a : Nat) : Bool := s.buffers.inInput a

/-- Whether address `a` is in the output range `[DST, DST + LEN)` (42 R174). -/
def inOutputRange (s : State) (a : Nat) : Bool := s.buffers.inOutput a

/-- Whether a host write to address `a` races with the input of a stream command whose end the host has not read
(20_memory R70 item 4, 70_reset R236; log 5). -/
def racesInput (s : State) (a : Nat) : Bool := s.openRuns.any fun b => b.inInput a

/-- Whether a host access to address `a` races with the output of a stream command whose end the host has not read
(20_memory R70 item 4, 70_reset R236; log 5). -/
def racesOutput (s : State) (a : Nat) : Bool := s.openRuns.any fun b => b.inOutput a

/-- The field of `width` bits from bit `lo` of a register value (00_scope R10). -/
def regField (v : Word) (lo width : Nat) : Nat := v.toNat / 2 ^ lo % 2 ^ width

/-- `CAP` as read: bit 0 is `VEC_PRESENT` (10_state R26). -/
def capWord (vec : Bool) : Word := 0#31 ++ BitVec.ofBool vec

/-- `CFG` as read: bit 0 SCALE, bit 1 RND, the rest 0 (10_state R27). -/
def Cfg.word (c : Cfg) : Word := 0#30 ++ BitVec.ofBool c.rnd ++ BitVec.ofBool c.scale

/-- `CFG` as written: bits 31:2 are ignored (10_state R27, R38). -/
def Cfg.ofWord (d : Word) : Cfg where
  scale := d.getLsbD 0
  rnd   := d.getLsbD 1

end Sys2Proof.Machine
end

