-- ==== Sys2Proof/Machine/Ops.lean ====
section
/-! DEFINITION. The named operations over memory, the memory port, the registers and the status that every meaning is
written over: memory (20_memory.md), the error entry and its return (60_exceptions.md R204, R208), acceptance and end of a
stream command (42_stream_commands.md R171 to R175, R180, R181), and reset (70_reset_and_hazards.md R230). -/

namespace Sys2Proof.Machine

open Sys2Proof

/-! ### Memory space -/

/-- The byte at address `a` (20_memory R60). -/
def Memory.read : Memory → Nat → Byte
  | [], _ => Config.unlistedByte
  | (k, b) :: rest, a => if a = k then b else Memory.read rest a

/-- Byte `v` written at address `a`, keeping the canonical form. -/
def Memory.write : Memory → Nat → Byte → Memory
  | [], a, v => if v = Config.unlistedByte then [] else [(a, v)]
  | (k, b) :: rest, a, v =>
    if a < k then (if v = Config.unlistedByte then (k, b) :: rest else (a, v) :: (k, b) :: rest)
    else if a = k then (if v = Config.unlistedByte then rest else (a, v) :: rest)
    else (k, b) :: Memory.write rest a v

/-- The `n` bytes from address `a`, lowest first (00_scope R12). -/
def Memory.readBytes (m : Memory) (a : Nat) : Nat → List Byte
  | 0     => []
  | n + 1 => m.read a :: Memory.readBytes m (a + 1) n

/-- The bytes `bs` written from address `a` on, the first at `a` (00_scope R12). -/
def Memory.writeBytes (m : Memory) (a : Nat) : List Byte → Memory
  | []      => m
  | b :: bs => Memory.writeBytes (m.write a b) (a + 1) bs

/-- The canonical form from address `lo` on: strictly rising addresses below `2^32`, no entry that an unlisted address
would read as. -/
def Memory.wfFrom (lo : Nat) : Memory → Bool
  | [] => true
  | (k, b) :: rest =>
    decide (lo ≤ k) && decide (k < Config.memSize) && decide (b ≠ Config.unlistedByte) && Memory.wfFrom (k + 1) rest

/-- The canonical form of memory. -/
def Memory.wf (m : Memory) : Bool := Memory.wfFrom 0 m

/-! ### The memory port -/

/-- The platform predicate `BUS_ERR(addr, size, dir)` (00_scope R5; log 3). -/
def busErrAt (rules : List BusErrRule) (addr size : Nat) (dir : Dir) : Bool :=
  rules.any fun r => decide (r.lo ≤ addr) && decide (addr ≤ r.hi) && r.size == size && r.dir == dir

/-- The forms `MemRead` is admitted for (20_memory R64), within memory space (R60). -/
def readAdmitted (addr n : Nat) : Bool :=
  (n == 4 && addr % 4 == 0 || n == 16 && addr % 16 == 0) && decide (addr + n ≤ Config.memSize)

/-- The forms `MemWrite` is admitted for (20_memory R65), within memory space (R60). -/
def writeAdmitted (addr n : Nat) : Bool :=
  (n == 1 || n == 4) && decide (addr + n ≤ Config.memSize)

/-- What the port answers a read. -/
inductive PortRead where
  | bytes (bs : List Byte)
  | busError
  | notAdmitted
  deriving DecidableEq, Repr

/-- What the port answers a write; `ok` carries memory after it. -/
inductive PortWrite where
  | ok (m : Memory)
  | busError
  | notAdmitted
  deriving DecidableEq, Repr

/-- `MemRead(addr, n)` (20_memory R64). -/
def memRead (s : State) (addr n : Nat) : PortRead :=
  if !readAdmitted addr n then .notAdmitted
  else if busErrAt s.busErr addr n .read then .busError
  else .bytes (s.mem.readBytes addr n)

/-- `MemWrite(addr, n, v)` of the `n` bytes `bs`, all or nothing (20_memory R65). -/
def memWrite (s : State) (addr : Nat) (bs : List Byte) : PortWrite :=
  if !writeAdmitted addr bs.length then .notAdmitted
  else if busErrAt s.busErr addr bs.length .write then .busError
  else .ok (s.mem.writeBytes addr bs)

/-! ### Errors: the entry and the return -/

/-- TAKING AN ERROR: latch code `e`; nothing is saved, no control is transferred (60_exceptions R200, R204, R206). -/
def latchError (e : ErrCode) (s : State) : State := { s with status := s.status.latch e }

/-- THE RETURN: a host write of `d` to STATUS, in every state (10_state R39, 60_exceptions R208). -/
def writeStatus (d : Word) (s : State) : State := { s with status := s.status.writeOneToClear d }

/-- A host write ignored because BUSY = 1 (10_state R40). -/
def ignoreWrite (s : State) : State := { s with status := s.status.noteIgnoredWrite }

/-! ### What every command's meaning starts with -/

/-- A command issued while BUSY = 1 is ignored and sets WIGN; otherwise it is carried out (10_state R29, R40). -/
def whenIdle (s : State) (k : State → Result) : Result :=
  if s.status.busy then .next (ignoreWrite s) else k s

/-- A 4-wide command in a build without the 4-wide datapath raises ILLEGAL and does nothing else
(30_encoding R83, 60_exceptions R202). -/
def whenVector (s : State) (k : State → Result) : Result :=
  if s.capVec then k s else .next (latchError .illegal s)

/-! ### Stream commands: acceptance and end -/

/-- The alignment of `SRC` a stream command needs (42_stream R172). -/
def RunKind.alignment : RunKind → Nat
  | .run1 => 4
  | .run4 => 16

/-- The acceptance checks after decoding, in order; the first that fails (42_stream R171 to R174, 60_exceptions R207). -/
def acceptCheck (kind : RunKind) (s : State) : Option ErrCode :=
  let src := s.src.toNat
  let dst := s.dst.toNat
  let len := s.len.toNat
  if src % kind.alignment ≠ 0 then some .align
  else if src + 4 * len > 2 ^ 32 ∨ dst + len > 2 ^ 32 then some .range
  else if len > 0 ∧ src < dst + len ∧ dst < src + 4 * len then some .overlap
  else none

/-- The effects of acceptance (42_stream R175). From here on a host access to the buffers is a race (70_reset R236; log 5). -/
def acceptStream (kind : RunKind) (s : State) : State :=
  { s with
    acc := posZero, pos := 0x00000000#32, rkind := kind, status := s.status.start,
    openRuns := s.buffers :: s.openRuns }

/-- A decoded stream command with BUSY = 0: rejected with its error, or accepted (42_stream R171). -/
def issueStream (kind : RunKind) (s : State) : State :=
  match acceptCheck kind s with
  | some e => latchError e s
  | none   => acceptStream kind s

/-- The finish step (42_stream R180). -/
def finishRun (s : State) : State := { s with status := s.status.finish }

/-- `bus_error(addr, dir)` (42_stream R181, 60_exceptions R205). -/
def endWithBusError (addr : Nat) (dir : Dir) (s : State) : State :=
  let e := match dir with
    | .read  => ErrCode.busErrRead
    | .write => ErrCode.busErrWrite
  { s with faddr := BitVec.ofNat 32 addr, status := (s.status.latch e).finish }

/-! ### Registers as the host reads and writes them -/

/-- What a host read of a register returns; it has no effect (10_state R37, R29). -/
def readRegister (s : State) : Reg → Word
  | .cap    => capWord s.capVec
  | .cfg    => s.cfg.word
  | .status => s.status.word
  | .cmd    => 0x00000000#32
  | .acc    => s.acc
  | .src    => s.src
  | .dst    => s.dst
  | .len    => s.len
  | .xin0   => s.xin.l0
  | .xin1   => s.xin.l1
  | .xin2   => s.xin.l2
  | .xin3   => s.xin.l3
  | .xout   => s.xout
  | .pfx0   => s.pfx.l0
  | .pfx1   => s.pfx.l1
  | .pfx2   => s.pfx.l2
  | .pfx3   => s.pfx.l3
  | .pos    => s.pos
  | .faddr  => s.faddr

/-- What a read of offset `off` returns: 0 where nothing is mapped (10_state R37). -/
def readOffset (s : State) (off : Byte) : Word :=
  match Reg.atOffset off with
  | some r => readRegister s r
  | none   => 0x00000000#32

/-- The effect of a host write of `d` to a register other than CMD that is not ignored (10_state R38, R39).
CMD is no storage (R29): its write issues a command, in Machine/HostPort.lean. -/
def writeRegister (r : Reg) (d : Word) (s : State) : State :=
  match r with
  | .cfg    => { s with cfg := Cfg.ofWord d }
  | .status => writeStatus d s
  | .acc    => { s with acc := d }
  | .src    => { s with src := d }
  | .dst    => { s with dst := d }
  | .len    => { s with len := d }
  | .xin0   => { s with xin := { s.xin with l0 := d } }
  | .xin1   => { s with xin := { s.xin with l1 := d } }
  | .xin2   => { s with xin := { s.xin with l2 := d } }
  | .xin3   => { s with xin := { s.xin with l3 := d } }
  | .cap | .cmd | .xout | .pfx0 | .pfx1 | .pfx2 | .pfx3 | .pos | .faddr => s

/-! ### Reset -/

/-- Reset: every register takes its reset value; CAP, memory, the platform and the host keep theirs
(70_reset R230, R232; log 15). -/
def resetBlock (s : State) : State :=
  { State.reset with
    capVec := s.capVec, mem := s.mem, busErr := s.busErr,
    hostProg := s.hostProg, turns := s.turns, reads := s.reads, openRuns := s.openRuns }

end Sys2Proof.Machine
end

