-- ==== Sys2Proof/Machine/RegisterSteps.lean ====
section
/-! DEFINITION. The register-step commands (41_register_commands.md R140 to R147). Each reads all its operands before it
writes (R147) and completes within the CMD write (R140). -/

namespace Sys2Proof.Machine

open Sys2Proof

/-- NOP (R141). -/
def execNop (s : State) : Result :=
  whenIdle s fun s => .next s

/-- CLR (R142). -/
def execClr (s : State) : Result :=
  whenIdle s fun s => .next { s with acc := posZero }

/-- STEP1 (R143): one scalar accumulate-and-convert step. -/
def execStep1 (s : State) : Result :=
  whenIdle s fun s =>
    let (a, b) := step1 s.acc s.xin.l0 s.cfg
    .next { s with acc := a, pfx := { s.pfx with l0 := a }, xout := b.setWidth 32 }

/-- STEP4 (R144): one 4-wide accumulate-and-convert step. -/
def execStep4 (s : State) : Result :=
  whenIdle s fun s => whenVector s fun s =>
    let (a, w, packed) := step4 s.acc s.xin s.cfg
    .next { s with acc := a, pfx := w, xout := packed }

/-- CVT1 (R145): convert lane 0 without accumulating. -/
def execCvt1 (s : State) : Result :=
  whenIdle s fun s => .next { s with xout := (conv8 s.xin.l0 s.cfg).setWidth 32 }

/-- CVT4 (R146): convert four lanes without accumulating. -/
def execCvt4 (s : State) : Result :=
  whenIdle s fun s => whenVector s fun s => .next { s with xout := convLanes s.xin s.cfg }

end Sys2Proof.Machine
end

