-- ==== Sys2Proof/Machine/StreamCommands.lean ====
section
/-! DEFINITION. The stream commands (42_stream_commands.md): what the CMD write does (R171 to R175, R183, R184), and the
SEQ agent's steps that carry the run out (R176 to R181). -/

namespace Sys2Proof.Machine

open Sys2Proof

/-- RUN1 (R183): acceptance; SEQ then runs the scalar units. -/
def execRun1 (s : State) : Result :=
  whenIdle s fun s => .next (issueStream .run1 s)

/-- RUN4 (R184): acceptance; SEQ then runs the block units and the scalar tail. -/
def execRun4 (s : State) : Result :=
  whenIdle s fun s => whenVector s fun s => .next (issueStream .run4 s)

/-- The scalar unit at sample `k` (R178). -/
def scalarUnit (k : Nat) (s : State) : Result :=
  match memRead s (elementAddr s k) 4 with
  | .notAdmitted => .fault (.portRequestNotAdmitted (elementAddr s k) 4 .read)
  | .busError => .next (endWithBusError (elementAddr s k) .read s)
  | .bytes r =>
    let (a, b) := step1 s.acc (wordAt r 0) s.cfg
    match memWrite s (outputAddr s k) [b] with
    | .notAdmitted => .fault (.portRequestNotAdmitted (outputAddr s k) 1 .write)
    | .busError => .next (endWithBusError (outputAddr s k) .write s)
    | .ok m => .next { s with mem := m, acc := a, pos := BitVec.ofNat 32 (k + 1) }

/-- The block unit at block `b` (R179). -/
def blockUnit (b : Nat) (s : State) : Result :=
  match memRead s (blockAddr s b) 16 with
  | .notAdmitted => .fault (.portRequestNotAdmitted (blockAddr s b) 16 .read)
  | .busError => .next (endWithBusError (blockAddr s b) .read s)
  | .bytes r =>
    let (a, _, packed) := step4 s.acc (lanesOfBytes r) s.cfg
    match memWrite s (outputAddr s (4 * b)) (wordBytes packed) with
    | .notAdmitted => .fault (.portRequestNotAdmitted (outputAddr s (4 * b)) 4 .write)
    | .busError => .next (endWithBusError (outputAddr s (4 * b)) .write s)
    | .ok m => .next { s with mem := m, acc := a, pos := BitVec.ofNat 32 (4 * b + 4) }

/-- SEQ's step: none while BUSY = 0 (R176), else the unit that R177 selects, or the finish step. -/
def seqStep (s : State) : Result :=
  if !s.status.busy then .next s
  else if s.pos = s.len then .next (finishRun s)
  else if s.rkind = .run4 ∧ s.len.toNat - s.pos.toNat ≥ 4 then blockUnit (s.pos.toNat / 4) s
  else scalarUnit s.pos.toNat s

end Sys2Proof.Machine
end

