-- ==== Sys2Proof/Machine/Dispatch.lean ====
section
/-! DEFINITION. What issuing each command does. -/

namespace Sys2Proof.Machine

open Sys2Proof

def exec (i : Instr) (s : State) : Host.Outcome State Fault Refusal :=
  match i with
  | .nop => Sys2Proof.Machine.execNop s
  | .clr => Sys2Proof.Machine.execClr s
  | .step1 => Sys2Proof.Machine.execStep1 s
  | .step4 => Sys2Proof.Machine.execStep4 s
  | .cvt1 => Sys2Proof.Machine.execCvt1 s
  | .cvt4 => Sys2Proof.Machine.execCvt4 s
  | .run1 => Sys2Proof.Machine.execRun1 s
  | .run4 => Sys2Proof.Machine.execRun4 s

end Sys2Proof.Machine
end

