-- ==== Sys2Proof/Machine/HostPort.lean ====
section
/-! DEFINITION. The HOST agent and its port: register transactions (30_encoding.md R84, 10_state.md R37 to R40), commands
issued through CMD (R81, R85), the host's own memory accesses and their races (20_memory.md R70), reset, host programs and
their pseudo-instructions (30_encoding.md R89, R90), and which agent moves next (42_stream_commands.md R176). -/

namespace Sys2Proof.Machine

open Sys2Proof

/-- A host write of `w` to CMD: an illegal word raises ILLEGAL, any other executes its command
(30_encoding R85, 60_exceptions R202); while BUSY = 1 either is ignored (10_state R40). -/
def issueWord (w : Word) (s : State) : Result :=
  match decode s.capVec w with
  | .ok i    => exec i s
  | .error _ => whenIdle s fun s => .next (latchError .illegal s)

/-- `WR(off, d)` of a 32-bit word at an aligned offset (10_state R38 to R40). -/
def hostWrite (off : Byte) (d : Word) (s : State) : Result :=
  match Reg.atOffset off with
  | none      => .next s
  | some .cmd => issueWord d s
  | some r    => .next (if s.status.busy && r.lockedWhileBusy then ignoreWrite s else writeRegister r d s)

/-- The stream commands whose end the host has still not read after a read of offset `off`: none once a read of STATUS
returns BUSY = 0 (20_memory R70 item 2, 42_stream R186, 70_reset R236; log 5). -/
def openAfterRead (off : Byte) (s : State) : List Buffers :=
  if off = Reg.status.offset ∧ s.status.busy = false then [] else s.openRuns

/-- The host takes a register read: it notes what the read returned (30_encoding R89; log 6), and has seen the end of
every run if that was BUSY = 0 (log 5). No register changes. -/
def noteRegRead (off : Byte) (s : State) : State :=
  { s with reads := .reg off (readOffset s off) :: s.reads, openRuns := openAfterRead off s }

/-- `RD(off)`: no register changes (10_state R37). -/
def hostRead (off : Byte) (s : State) : Result := .next (noteRegRead off s)

/-- `POLL`: a read; the host goes on once the field equals `v`, else it polls again (30_encoding R89; log 14). -/
def hostPoll (off : Byte) (lo width v : Nat) (s : State) : Result :=
  if regField (readOffset s off) lo width = v then .next (noteRegRead off s)
  else .next { noteRegRead off s with hostProg := .poll off lo width v :: s.hostProg }

/-- The host reads a byte of memory. A race, from the acceptance of a stream command that writes the byte to the STATUS read
that returns BUSY = 0, after BUSY has fallen too (20_memory R70, 70_reset R236). That it stops there is the model's choice
(DESIGN CHOICE, log 5; log 10). -/
def hostMemRead (addr : Word) (s : State) : Result :=
  if racesOutput s addr.toNat then .fault (.raceOnOutput addr)
  else .next { s with reads := .mem addr (s.mem.read addr.toNat) :: s.reads }

/-- The host writes a byte of memory. A race, from the acceptance of a stream command that reads or writes the byte to the
STATUS read that returns BUSY = 0, after BUSY has fallen too (20_memory R70, 70_reset R236). That it stops there is the
model's choice (DESIGN CHOICE, log 5; log 10). -/
def hostMemWrite (addr : Word) (b : Byte) (s : State) : Result :=
  if racesInput s addr.toNat then .fault (.raceOnInput addr)
  else if racesOutput s addr.toNat then .fault (.raceOnOutput addr)
  else .next { s with mem := s.mem.write addr.toNat b }

/-- A register access: a transaction of 30_encoding R84, or refused (93 U11; log 7). -/
def registerAccess (off : Byte) (size : Nat) (k : State → Result) (s : State) : Result :=
  if registerAccessDefined off size then k s else .refused (.registerAccessUndefined off size)

/-- One operation of the host, already taken from its program. -/
def hostOp (op : HostOp) (s : State) : Result :=
  match op with
  | .rd off size         => registerAccess off size (hostRead off) s
  | .wr off size d       => registerAccess off size (hostWrite off d) s
  | .poll off lo width v => registerAccess off 4 (hostPoll off lo width v) s
  | .memRd addr          => hostMemRead addr s
  | .memWr addr b        => hostMemWrite addr b s
  | .reset               => .next (resetBlock s)

/-- HOST's step: its next operation; a host with nothing to do changes nothing (60_exceptions R217; log 16). -/
def hostStep (s : State) : Result :=
  match s.hostProg with
  | []         => .next s
  | op :: rest => hostOp op { s with hostProg := rest }

/-- Which agent moves next, and the state with that turn taken off the schedule. With no turn scheduled SEQ moves while
BUSY = 1 and HOST otherwise, so SEQ always takes its next step in the end (42_stream R176, 93 U13; log 1, log 13). -/
def nextAgent (s : State) : Agent × State :=
  match s.turns with
  | a :: rest => (a, { s with turns := rest })
  | []        => (if s.status.busy then .seq else .host, s)

/-- The step of the agent that moves next. -/
def agentStep (s : State) : Result :=
  match nextAgent s with
  | (.seq, t)  => seqStep t
  | (.host, t) => hostStep t

/-- The state in which the host's next operation, at the next step, writes `w` to CMD (log 1). -/
def queueCommand (w : Word) (s : State) : State :=
  { s with hostProg := .wr Reg.cmd.offset 4 w :: s.hostProg, turns := .host :: s.turns }

/-! ### Host programs (30_encoding R89, R90) -/

/-- `WR <REG>, <value>` (R89). -/
def progWr (r : Reg) (d : Word) : HostOp := .wr r.offset 4 d

/-- `RD <REG>` (R89). -/
def progRd (r : Reg) : HostOp := .rd r.offset 4

/-- `CMD <mnemonic>` (R90). -/
def progCmd (i : Instr) : HostOp := progWr .cmd (encode i)

/-- `WAIT`: `POLL STATUS.BUSY == 0` (R90). -/
def progWait : HostOp := .poll Reg.status.offset 0 1 0

/-- `SETCFG <scale>, <rnd>` (R90). -/
def progSetCfg (scale rnd : Bool) : HostOp := progWr .cfg (Cfg.word { scale := scale, rnd := rnd })

/-- `LDX4 <a>, <b>, <c>, <d>` (R90). -/
def progLdx4 (a b c d : Word) : List HostOp := [progWr .xin0 a, progWr .xin1 b, progWr .xin2 c, progWr .xin3 d]

/-- `ACCUMULATE <src>, <dst>, <n>` (R90). -/
def progAccumulate (src dst n : Word) : List HostOp :=
  [progWr .src src, progWr .dst dst, progWr .len n, progCmd .run4, progWait]

/-- `ACCUMULATE_SCALAR <src>, <dst>, <n>` (R90). -/
def progAccumulateScalar (src dst n : Word) : List HostOp :=
  [progWr .src src, progWr .dst dst, progWr .len n, progCmd .run1, progWait]

/-- `CLRSTAT` (R90). -/
def progClrStat : HostOp := progWr .status 0x0000000E#32

/-- `MEM <addr>: <bytes>`: memory content before the program starts (R89). -/
def withMem (addr : Nat) (bs : List Byte) (s : State) : State := { s with mem := s.mem.writeBytes addr bs }

end Sys2Proof.Machine
end

