-- ==== Sys2Proof/Machine/Step.lean ====
section
/-! DEFINITION. One step of the machine, and how the host of the pipeline places a command. -/

namespace Sys2Proof.Machine

open Sys2Proof

/-- One step: one host operation or one SEQ step, each atomic (30_encoding R84, 42_stream R176). -/
def step (s : State) : Host.Outcome State Fault Refusal := agentStep s

/-- The command word given by the low `nbits` bits of `w`, placed where `step` takes its next command: as the host's next
operation, at the next turn (FPACC fetches nothing, 10_state R22; log 1). -/
def State.withFetchWord (s : State) (nbits w : Nat) : State := queueCommand (tableWord nbits w) s

end Sys2Proof.Machine
end

