-- ==== Sys2Proof/Safety.lean ====
section
/-! DEFINITION. What claims are stated in: the invariant of the machine, the values a stream command computes
(42_stream_commands.md R170, R182), and what counts as a safe step. Nothing here is run by the machine. -/

namespace Sys2Proof.Machine

open Sys2Proof

/-- The command that starts a run of a kind (42_stream R183, R184). -/
def RunKind.instr : RunKind → Instr
  | .run1 => .run1
  | .run4 => .run4

/-- What holds of a running stream command's operands and progress: the acceptance checks it passed
(42_stream R171 to R174), `POS <= LEN` (10_state R35), and POS at a multiple of 4 until the tail of a RUN4 (42_stream R177). -/
structure State.RunWellFormed (s : State) : Prop where
  vectorPresent : s.rkind = .run4 → s.capVec = true
  elementAligned : s.src.toNat % 4 = 0
  blockAligned : s.rkind = .run4 → s.src.toNat % 16 = 0
  inputFits : s.src.toNat + 4 * s.len.toNat ≤ 2 ^ 32
  outputFits : s.dst.toNat + s.len.toNat ≤ 2 ^ 32
  buffersDisjoint : ∀ a, inInputRange s a = true → inOutputRange s a = false
  posInRange : s.pos.toNat ≤ s.len.toNat
  blocksStartAtFours : s.rkind = .run4 → s.pos.toNat % 4 = 0 ∨ 4 * (s.len.toNat / 4) ≤ s.pos.toNat

/-- The invariant of the machine. The last part is about the model's own field: a running command's buffers are among
those the host may not touch (log 5). -/
structure State.Inv (s : State) : Prop where
  memCanonical : s.mem.wf = true
  ecodeZeroIffNoError : s.status.ecode = .noError ↔ s.status.err = false
  busyNotDone : s.status.busy = true → s.status.done = false
  runWellFormed : s.status.busy = true → s.RunWellFormed
  runOpen : s.status.busy = true → s.buffers ∈ s.openRuns

/-- Input element `k` of a buffer at `src`: four bytes, little-endian (20_memory R61, 42_stream R170). -/
def elementAt (m : Memory) (src k : Nat) : Word :=
  wordOfBytes (m.read (src + 4 * k)) (m.read (src + 4 * k + 1)) (m.read (src + 4 * k + 2)) (m.read (src + 4 * k + 3))

/-- The accumulator after `n` scalar steps from +0.0 over the elements `x` (40_datapath R109). -/
def scalarSum (x : Nat → Word) : Nat → Word
  | 0     => posZero
  | n + 1 => fadd (scalarSum x n) (x n)

/-- The four elements of block `b`. -/
def blockOf (x : Nat → Word) (b : Nat) : Lanes where
  l0 := x (4 * b)
  l1 := x (4 * b + 1)
  l2 := x (4 * b + 2)
  l3 := x (4 * b + 3)

/-- The carry after `b` blocks from +0.0 (40_datapath R111). -/
def carryAfter (x : Nat → Word) : Nat → Word
  | 0     => posZero
  | b + 1 => (scan4 (blockOf x b) (carryAfter x b)).l3

/-- The accumulator after `j` scalar steps that continue from the carry after `b` blocks: the tail (42_stream R170). -/
def tailSum (x : Nat → Word) (b : Nat) : Nat → Word
  | 0     => carryAfter x b
  | j + 1 => fadd (tailSum x b j) (x (4 * b + j))

/-- `y_k`, the running-sum value of sample `k` in a run of `len` samples (42_stream R170). -/
def runningSum (kind : RunKind) (x : Nat → Word) (len k : Nat) : Word :=
  match kind with
  | .run1 => scalarSum x (k + 1)
  | .run4 =>
    if k < 4 * (len / 4) then (scan4 (blockOf x (k / 4)) (carryAfter x (k / 4))).lane (k % 4)
    else tailSum x (len / 4) (k + 1 - 4 * (len / 4))

/-- What ACC holds after `c` samples: `y_{c-1}`, or +0.0 if `c = 0` (42_stream R182). -/
def accAfter (kind : RunKind) (x : Nat → Word) (len : Nat) : Nat → Word
  | 0     => posZero
  | k + 1 => runningSum kind x len k

/-- The elements of the buffer a state's SRC names. -/
def State.input (s : State) : Nat → Word := elementAt s.mem s.src.toNat

/-- The progress invariant of a running stream command (42_stream R182): the first POS output bytes hold the
conversions of the running sums of the input, and ACC holds the last of them. -/
def State.Progress (s : State) : Prop :=
  s.acc = accAfter s.rkind s.input s.len.toNat s.pos.toNat ∧
  ∀ k < s.pos.toNat,
    s.mem.read (outputAddr s k) = conv8 (runningSum s.rkind s.input s.len.toNat k) s.cfg

/-- SEQ steps of a run of `len` samples, the finish step among them (42_stream R176). -/
def seqSteps : RunKind → Nat → Nat
  | .run1, len => len + 1
  | .run4, len => len / 4 + len % 4 + 1

/-- `n` steps of the machine, stopping at the first fault or refusal. -/
def stepMany : Nat → State → Result
  | 0, s => .next s
  | n + 1, s =>
    match step s with
    | .next t    => stepMany n t
    | .fault f   => .fault f
    | .refused r => .refused r

/-- `n` issues of command `i`, one after the other. -/
def issueMany (i : Instr) : Nat → State → Result
  | 0, s => .next s
  | n + 1, s =>
    match exec i s with
    | .next t    => issueMany i n t
    | .fault f   => .fault f
    | .refused r => .refused r

/-- No read in the input and no write in the output that SRC, DST and LEN name is answered `BusError`. -/
def State.noBusErrors (s : State) : Prop :=
  ∀ addr size, (inInputRange s addr = true → busErrAt s.busErr addr size .read = false) ∧
    (inOutputRange s addr = true → busErrAt s.busErr addr size .write = false)

/-- The unit SEQ does next (42_stream R177 to R179) has a request at `addr` in direction `dir` that the platform answers
`BusError`. -/
def State.unitRequestFails (s : State) (addr : Nat) (dir : Dir) : Prop :=
  if s.rkind = .run4 ∧ s.len.toNat - s.pos.toNat ≥ 4 then
    (dir = .read ∧ addr = blockAddr s (s.pos.toNat / 4) ∧ busErrAt s.busErr addr 16 .read = true) ∨
    (dir = .write ∧ addr = outputAddr s (4 * (s.pos.toNat / 4)) ∧ busErrAt s.busErr addr 4 .write = true)
  else
    (dir = .read ∧ addr = elementAddr s s.pos.toNat ∧ busErrAt s.busErr addr 4 .read = true) ∨
    (dir = .write ∧ addr = outputAddr s s.pos.toNat ∧ busErrAt s.busErr addr 1 .write = true)

/-- The real sum of `a` and `b` is a binary32 value (40_datapath R114: "its real sum is representable"). -/
def exactSum (a b : Word) : Prop :=
  isFinite a = true ∧ isFinite b = true ∧ ∃ p : Word, isFinite p = true ∧ val p = val a + val b

/-- Every addition of `step4(acc, v, _)` is exact (40_datapath R110, R114). -/
def step4Exact (acc : Word) (v : Lanes) : Prop :=
  let s1 := scanStage1 v
  let s2 := scanStage2 s1
  (exactSum v.l0 posZero ∧ exactSum v.l1 v.l0 ∧ exactSum v.l2 v.l1 ∧ exactSum v.l3 v.l2) ∧
  (exactSum s1.l0 posZero ∧ exactSum s1.l1 posZero ∧ exactSum s1.l2 s1.l0 ∧ exactSum s1.l3 s1.l1) ∧
  (exactSum s2.l0 acc ∧ exactSum s2.l1 acc ∧ exactSum s2.l2 acc ∧ exactSum s2.l3 acc)

/-- The four accumulators of four successive `step1` calls from `acc` (40_datapath R109, R114). -/
def step1Chain (acc : Word) (v : Lanes) : Lanes where
  l0 := fadd acc v.l0
  l1 := fadd (fadd acc v.l0) v.l1
  l2 := fadd (fadd (fadd acc v.l0) v.l1) v.l2
  l3 := fadd (fadd (fadd (fadd acc v.l0) v.l1) v.l2) v.l3

/-- Every addition of four successive `step1` calls from `acc` is exact (40_datapath R114). -/
def step1ChainExact (acc : Word) (v : Lanes) : Prop :=
  let a := step1Chain acc v
  exactSum acc v.l0 ∧ exactSum a.l0 v.l1 ∧ exactSum a.l1 v.l2 ∧ exactSum a.l2 v.l3

/-- Either zero (40_datapath R100). -/
def isZero (p : Word) : Prop := p = posZero ∨ p = negZero

/-- A safe outcome: a next state that meets the invariant, a race between the host and a running command, or a host
register access that is no transaction. No memory request outside the port's forms (log 5, log 7, log 8). -/
def safeOutcome : Result → Prop
  | .next t => t.Inv
  | .fault (.raceOnInput _) => True
  | .fault (.raceOnOutput _) => True
  | .fault (.portRequestNotAdmitted _ _ _) => False
  | .refused (.registerAccessUndefined _ _) => True
  | .refused _ => False

end Sys2Proof.Machine
end

