-- ==== Sys2Proof/Certificates/Slice0/Obligations.lean ====
section
/-! DEFINITION. The statements about the model. Each docstring names the rules of spec/ it formalises, or says that it is
the model's own choice and which log entry declares it. -/

open Sys2Proof Sys2Proof.Machine

/-! ### Encoding -/

/-- Sanity: the eight words of 30_encoding R82, written out, decode to their commands in a build with every command. -/
def Obligations.OpcodeWordsDecodeToTheirCommands : Prop :=
  decode true 0x00000000#32 = .ok .nop ∧ decode true 0x00000001#32 = .ok .clr ∧
  decode true 0x00000002#32 = .ok .step1 ∧ decode true 0x00000003#32 = .ok .step4 ∧
  decode true 0x00000004#32 = .ok .cvt1 ∧ decode true 0x00000005#32 = .ok .cvt4 ∧
  decode true 0x00000006#32 = .ok .run1 ∧ decode true 0x00000007#32 = .ok .run4

/-- R82, R85: over all 2^32 words and both builds, a word decodes to a command exactly when all its 32 bits equal the
command's match value and the build has the command. -/
def Obligations.DecodeAcceptsExactlyTheOpcodeMap : Prop :=
  (encode .nop = 0x00000000#32 ∧ encode .clr = 0x00000001#32 ∧ encode .step1 = 0x00000002#32 ∧
    encode .step4 = 0x00000003#32 ∧ encode .cvt1 = 0x00000004#32 ∧ encode .cvt4 = 0x00000005#32 ∧
    encode .run1 = 0x00000006#32 ∧ encode .run4 = 0x00000007#32) ∧
  ∀ (vec : Bool) (w : Word) (i : Instr),
    decode vec w = .ok i ↔ w = encode i ∧ (i = .step4 ∨ i = .cvt4 ∨ i = .run4 → vec = true)

/-- Decode and encode agree on every command each build has, and no two commands share a word. -/
def Obligations.DecodeOfEncodeIsTheCommand : Prop :=
  (∀ (vec : Bool) (i : Instr), i.wellFormed vec = true → decode vec (encode i) = .ok i) ∧
  ∀ i j : Instr, encode i = encode j → i = j

/-- R83, R202: the illegal words are exactly those of R83's three conditions; written to CMD while BUSY = 0 one latches
ILLEGAL (code 1, unless an error is latched already) and changes nothing else; while BUSY = 1 it is ignored, sets WIGN,
and raises nothing. -/
def Obligations.IllegalWordsRaiseIllegalWhenIdle : Prop :=
  ∀ (s : State) (w : Word),
    ((∃ e, decode s.capVec w = .error e) ↔
      w.toNat / 2 ^ 8 ≠ 0 ∨ w.toNat % 2 ^ 8 ≥ 8 ∨
        ((w.toNat % 2 ^ 8 = 3 ∨ w.toNat % 2 ^ 8 = 5 ∨ w.toNat % 2 ^ 8 = 7) ∧ s.capVec = false)) ∧
    ((∃ e, decode s.capVec w = .error e) → s.status.busy = false →
      hostOp (.wr 0x0C#8 4 w) s =
        .next { s with status := if s.status.err then s.status else { s.status with err := true, ecode := .illegal } }) ∧
    ((∃ e, decode s.capVec w = .error e) → s.status.busy = true →
      hostOp (.wr 0x0C#8 4 w) s = .next { s with status := { s.status with wign := true } })

/-! ### The step -/

/-- A step runs the decoded command: when it is the host's turn and its next operation writes a legal word to CMD, the
step is that command's exec at the state with the operation and the turn taken (R81, R85; log 1). -/
def Obligations.StepRunsTheIssuedCommand : Prop :=
  ∀ (s : State) (w : Word) (i : Instr) (ops : List HostOp), decode s.capVec w = .ok i →
    s.hostProg = .wr 0x0C#8 4 w :: ops →
    (∀ ts, s.turns = .host :: ts → step s = exec i { s with turns := ts, hostProg := ops }) ∧
    (s.turns = [] → s.status.busy = false → step s = exec i { s with hostProg := ops })

/-- R84, R217: every step at the host's turn performs the host's next operation, whichever it is, at the state with that
operation and the turn taken, and nothing else; with no operation left it changes nothing but the schedule (log 1, 13, 16). -/
def Obligations.StepRunsTheHostsNextOperation : Prop :=
  ∀ s : State,
    (∀ op ops, s.hostProg = op :: ops →
      (∀ ts, s.turns = .host :: ts → step s = hostOp op { s with turns := ts, hostProg := ops }) ∧
      (s.turns = [] → s.status.busy = false → step s = hostOp op { s with hostProg := ops })) ∧
    (s.hostProg = [] →
      (∀ ts, s.turns = .host :: ts → step s = .next { s with turns := ts }) ∧
      (s.turns = [] → s.status.busy = false → step s = .next s))

/-- The word the pipeline's host places is the next one to run, and running it leaves the state it was placed in
otherwise as it was (log 1). -/
def Obligations.PlacedWordRunsNext : Prop :=
  ∀ (s : State) (w : Word) (i : Instr), decode s.capVec w = .ok i →
    step (s.withFetchWord 32 w.toNat) = exec i s

/-- R176, R217: SEQ has a step exactly while BUSY = 1. While idle its turn changes no state; while busy, in every state that
meets the invariant, it answers a next state, in which POS has moved on or the run has ended. With no turn scheduled SEQ
moves while BUSY = 1, and at a turn of its own it moves (log 13). -/
def Obligations.SeqStepsExactlyWhileBusy : Prop :=
  ∀ s : State,
    (s.status.busy = false → seqStep s = .next s) ∧
    (s.status.busy = true → s.Inv →
      ∃ t, seqStep s = .next t ∧ (s.pos.toNat < t.pos.toNat ∨ t.status.busy = false)) ∧
    (s.turns = [] → s.status.busy = true → step s = seqStep s) ∧
    ∀ ts, s.turns = .seq :: ts → step s = seqStep { s with turns := ts }

/-- R29, R40: any command written to CMD while BUSY = 1 is ignored: only WIGN is set. -/
def Obligations.CommandsAreIgnoredWhileBusy : Prop :=
  ∀ (i : Instr) (s : State), s.status.busy = true →
    exec i s = .next { s with status := { s.status with wign := true } }

/-! ### Register steps -/

/-- R141: NOP changes no register; a word with OP 0 and a nonzero RSV is illegal, not a NOP. -/
def Obligations.NopChangesNothing : Prop :=
  encode .nop = 0x00000000#32 ∧
  (∀ s : State, s.status.busy = false → exec .nop s = .next s) ∧
  ∀ (vec : Bool) (w : Word), opField w = 0 → rsvField w ≠ 0 → decode vec w = .error .reservedBitsSet

/-- R142: CLR sets ACC to +0.0 whatever it held, and changes nothing else. -/
def Obligations.ClrZeroesTheAccumulator : Prop :=
  encode .clr = 0x00000001#32 ∧
  ∀ s : State, s.status.busy = false → exec .clr s = .next { s with acc := 0x00000000#32 }

/-- R143: STEP1 adds XIN0 to ACC, leaves the sum in ACC and PFX0, its byte in XOUT with bits 31:8 zero, and changes
nothing else; the rule's corner cases and its example. -/
def Obligations.Step1AccumulatesAndConverts : Prop :=
  encode .step1 = 0x00000002#32 ∧
  (∀ s : State, s.status.busy = false →
    exec .step1 s = .next { s with
      acc := fadd s.acc s.xin.l0,
      pfx := { s.pfx with l0 := fadd s.acc s.xin.l0 },
      xout := (0#24 ++ conv8 (fadd s.acc s.xin.l0) s.cfg : BitVec 32) }) ∧
  (∀ cfg, step1 0x7F800000#32 0xFF800000#32 cfg = (0x7FC00000#32, 0xFF#8)) ∧
  (∀ cfg, step1 0x7F7FFFFF#32 0x7F7FFFFF#32 cfg = (0x7F800000#32, 0xFF#8)) ∧
  (∀ cfg, step1 0x80000000#32 0x80000000#32 cfg = (0x80000000#32, 0x00#8)) ∧
  (∀ cfg, (step1 0x00000000#32 0x80000000#32 cfg).1 = 0x00000000#32) ∧
  (∀ acc x cfg, isNaN x = true → (step1 acc x cfg).1 = 0x7FC00000#32) ∧
  (∀ acc x cfg, isFinite acc = true → x = acc ^^^ 0x80000000#32 → (step1 acc x cfg).1 = 0x00000000#32) ∧
  step1 0x3F800000#32 0xBF000000#32 { scale := false, rnd := false } = (0x3F000000#32, 0x7F#8)

/-- R144: STEP4 scans the four lanes, leaves the prefix values in PFX, the last in ACC and their bytes in XOUT, and
changes nothing else; the rule's corner cases and its example. -/
def Obligations.Step4ScansFourLanes : Prop :=
  encode .step4 = 0x00000003#32 ∧
  (∀ s : State, s.status.busy = false → s.capVec = true →
    exec .step4 s = .next { s with
      pfx := scan4 s.xin s.acc,
      acc := (scan4 s.xin s.acc).l3,
      xout := (conv8 (scan4 s.xin s.acc).l3 s.cfg ++ conv8 (scan4 s.xin s.acc).l2 s.cfg ++
        conv8 (scan4 s.xin s.acc).l1 s.cfg ++ conv8 (scan4 s.xin s.acc).l0 s.cfg : BitVec 32) }) ∧
  (∀ s : State, s.status.busy = false → s.capVec = false → exec .step4 s = .next (latchError .illegal s)) ∧
  (∀ cfg, step4 posZero ⟨posZero, posZero, posZero, posZero⟩ cfg =
    (posZero, ⟨posZero, posZero, posZero, posZero⟩, 0x00000000#32)) ∧
  (∀ (v : Lanes) acc cfg (j i : Nat), j ≤ i → i < 4 → isNaN (v.lane j) = true →
    (scan4 v acc).lane i = qNaN ∧ (step4 acc v cfg).1 = qNaN ∧ conv8 ((scan4 v acc).lane i) cfg = 0xFF#8) ∧
  (∀ (v : Lanes) acc (i : Nat), i < 4 → isNaN acc = true → (scan4 v acc).lane i = qNaN) ∧
  (∀ v : Lanes, v.l0 = negZero → (scanStage1 v).l0 = posZero) ∧
  step4 0x00000000#32 ⟨0x3E800000#32, 0x3F400000#32, 0x00000000#32, 0xBF000000#32⟩ { scale := false, rnd := false } =
    (0x3F000000#32, ⟨0x3E800000#32, 0x3F800000#32, 0x3F800000#32, 0x3F000000#32⟩, 0x7FFFFF3F#32)

/-- R145: CVT1 converts XIN0 into XOUT and changes nothing else; the rule's corner cases and its example. -/
def Obligations.Cvt1ConvertsOneLane : Prop :=
  encode .cvt1 = 0x00000004#32 ∧
  (∀ s : State, s.status.busy = false →
    exec .cvt1 s = .next { s with xout := (0#24 ++ conv8 s.xin.l0 s.cfg : BitVec 32) }) ∧
  (∀ x cfg, isNaN x = true ∨ isInf x = true ∨ mag x ≥ mag one → conv8 x cfg = 0xFF#8) ∧
  (∀ x cfg, x = 0x00000000#32 ∨ x = 0x80000000#32 ∨ x = 0x00000001#32 → conv8 x cfg = 0x00#8) ∧
  conv8 0x3F7FFFFF#32 { scale := false, rnd := false } = 254#8 ∧
  conv8 0x3F7FFFFF#32 { scale := false, rnd := true } = 255#8 ∧
  conv8 0x3F7FFFFF#32 { scale := true, rnd := false } = 255#8 ∧
  conv8 0x3F7FFFFF#32 { scale := true, rnd := true } = 255#8 ∧
  (cvtInt (scaled one { scale := true, rnd := true }) true = 256 ∧
    conv8 one { scale := true, rnd := true } = 255#8) ∧
  conv8 0x3F000000#32 { scale := false, rnd := true } = 0x80#8

/-- R146: CVT4 converts the four lanes, lane i into byte i of XOUT, and changes nothing else; its example. -/
def Obligations.Cvt4ConvertsFourLanes : Prop :=
  encode .cvt4 = 0x00000005#32 ∧
  (∀ s : State, s.status.busy = false → s.capVec = true →
    exec .cvt4 s = .next { s with
      xout := (conv8 s.xin.l3 s.cfg ++ conv8 s.xin.l2 s.cfg ++ conv8 s.xin.l1 s.cfg ++ conv8 s.xin.l0 s.cfg :
        BitVec 32) }) ∧
  (∀ s : State, s.status.busy = false → s.capVec = false → exec .cvt4 s = .next (latchError .illegal s)) ∧
  convLanes ⟨0x3E800000#32, 0x3F800000#32, 0xBF000000#32, 0x7FC00000#32⟩ { scale := false, rnd := false } =
    0xFF7FFF3F#32

/-- The frame of R140, for the six register steps in both builds: the command completes, BUSY, DONE, WIGN, POS, FADDR,
SRC, DST, LEN, CFG, XIN, RKIND and memory are as before, PFX1 to PFX3 too but for STEP4, and no error is latched but
ILLEGAL by STEP4 and CVT4 in a build without them. -/
def Obligations.RegisterStepsFrame : Prop :=
  ∀ (i : Instr) (s : State), i ≠ .run1 → i ≠ .run4 → s.status.busy = false →
    ∃ t, exec i s = .next t ∧
      (t.status = s.status ∨ ((i = .step4 ∨ i = .cvt4) ∧ s.capVec = false ∧ t = latchError .illegal s)) ∧
      t.status.busy = false ∧ t.status.done = s.status.done ∧ t.status.wign = s.status.wign ∧
      t.pos = s.pos ∧ t.faddr = s.faddr ∧ t.src = s.src ∧ t.dst = s.dst ∧ t.len = s.len ∧ t.cfg = s.cfg ∧
      t.xin = s.xin ∧ t.rkind = s.rkind ∧ (∀ a, t.mem.read a = s.mem.read a) ∧
      (i ≠ .step4 → t.pfx.l1 = s.pfx.l1 ∧ t.pfx.l2 = s.pfx.l2 ∧ t.pfx.l3 = s.pfx.l3) ∧
      (i ≠ .step4 → i ≠ .step1 → t.pfx.l0 = s.pfx.l0) ∧
      (i = .nop ∨ i = .cvt1 ∨ i = .cvt4 → t.acc = s.acc) ∧
      (i = .nop ∨ i = .clr → t.xout = s.xout)

/-- R209: a latched error never blocks a command. Two states that differ only in ERR and ECODE go to states that differ
only there. -/
def Obligations.LatchedErrorBlocksNoCommand : Prop :=
  ∀ (i : Instr) (s : State) (e : Bool) (c : ErrCode),
    ∃ t t', exec i s = .next t ∧ exec i { s with status := { s.status with err := e, ecode := c } } = .next t' ∧
      { t' with status := { t'.status with err := t.status.err, ecode := t.status.ecode } } = t

/-- R147: repeating STEP1 k times with a fixed XIN0 from ACC = +0.0 leaves the k-fold left-to-right sum of it in ACC. -/
def Obligations.RepeatedStep1SumsLeftToRight : Prop :=
  ∀ (k : Nat) (s : State), s.status.busy = false → s.acc = posZero →
    ∃ t, issueMany .step1 k s = .next t ∧ t.acc = scalarSum (fun _ => s.xin.l0) k ∧ t.xin = s.xin

/-! ### Errors -/

/-- R204: latching records the first error only; R39, R208: a write with bit 2 set clears it. -/
def Obligations.FirstErrorIsSticky : Prop :=
  ∀ (e : ErrCode) (s : State),
    latchError e s = (if s.status.err then s else { s with status := { s.status with err := true, ecode := e } }) ∧
    (∀ e', latchError e' (latchError e s) = latchError e s) ∧
    ∀ d : Word, d.getLsbD 2 = true →
      (writeStatus d (latchError e s)).status.err = false ∧
      (writeStatus d (latchError e s)).status.ecode = .noError

/-! ### Stream commands: acceptance -/

/-- R175: a RUN1 or RUN4 that passes the checks of R171 to R174 is accepted: ACC and POS are zeroed, RKIND records the
kind, DONE falls, BUSY rises, and nothing else changes, but that the host may now not touch the buffers (the model's own
field, log 5). -/
def Obligations.StreamCommandsAreAccepted : Prop :=
  ∀ (kind : RunKind) (s : State), s.status.busy = false →
    (kind = .run1 → s.src.toNat % 4 = 0) → (kind = .run4 → s.src.toNat % 16 = 0 ∧ s.capVec = true) →
    s.src.toNat + 4 * s.len.toNat ≤ 2 ^ 32 → s.dst.toNat + s.len.toNat ≤ 2 ^ 32 →
    (s.len.toNat = 0 ∨ s.dst.toNat + s.len.toNat ≤ s.src.toNat ∨ s.src.toNat + 4 * s.len.toNat ≤ s.dst.toNat) →
    exec kind.instr s = .next { s with
      acc := 0x00000000#32, pos := 0x00000000#32, rkind := kind,
      status := { s.status with done := false, busy := true },
      openRuns := ⟨s.src, s.dst, s.len⟩ :: s.openRuns }

/-- R171, R203, R207: a RUN1 or RUN4 that fails a check is rejected with the first failing check's error, in the order
ILLEGAL, ALIGN, RANGE, OVERLAP; only ERR and ECODE can change. -/
def Obligations.StreamCommandsAreRejectedInOrder : Prop :=
  ∀ (kind : RunKind) (s : State), s.status.busy = false →
    let aligned := if kind = .run4 then s.src.toNat % 16 = 0 else s.src.toNat % 4 = 0
    let fits := s.src.toNat + 4 * s.len.toNat ≤ 2 ^ 32 ∧ s.dst.toNat + s.len.toNat ≤ 2 ^ 32
    let overlap := s.len.toNat > 0 ∧ s.src.toNat < s.dst.toNat + s.len.toNat ∧ s.dst.toNat < s.src.toNat + 4 * s.len.toNat
    (kind = .run4 ∧ s.capVec = false → exec kind.instr s = .next (latchError .illegal s)) ∧
    (¬(kind = .run4 ∧ s.capVec = false) → ¬aligned → exec kind.instr s = .next (latchError .align s)) ∧
    (¬(kind = .run4 ∧ s.capVec = false) → aligned → ¬fits → exec kind.instr s = .next (latchError .range s)) ∧
    (¬(kind = .run4 ∧ s.capVec = false) → aligned → fits → overlap → exec kind.instr s = .next (latchError .overlap s)) ∧
    ∀ e, (latchError e s).status.busy = s.status.busy ∧ (latchError e s).status.done = s.status.done ∧
      (latchError e s).acc = s.acc ∧ (latchError e s).pos = s.pos ∧ (latchError e s).rkind = s.rkind ∧
      (latchError e s).mem = s.mem

/-! ### Stream commands: the units of SEQ -/

/-- R180: with POS = LEN the step only drops BUSY and sets DONE. -/
def Obligations.FinishStepEndsTheRun : Prop :=
  ∀ s : State, s.status.busy = true → s.pos = s.len →
    seqStep s = .next { s with status := { s.status with busy := false, done := true } }

/-- R177, R178: a scalar unit whose two requests succeed adds element POS to ACC, writes its byte at DST + POS, moves POS
on by one, and changes nothing else. -/
def Obligations.ScalarUnitProcessesOneSample : Prop :=
  ∀ s : State, s.Inv → s.status.busy = true → s.pos ≠ s.len →
    (s.rkind = .run1 ∨ s.len.toNat - s.pos.toNat < 4) →
    busErrAt s.busErr (s.src.toNat + 4 * s.pos.toNat) 4 .read = false →
    busErrAt s.busErr (s.dst.toNat + s.pos.toNat) 1 .write = false →
    seqStep s = .next { s with
      acc := fadd s.acc (s.input s.pos.toNat),
      mem := s.mem.write (s.dst.toNat + s.pos.toNat) (conv8 (fadd s.acc (s.input s.pos.toNat)) s.cfg),
      pos := s.pos + 1 }

/-- R177, R179: a block unit whose two requests succeed scans the four elements from POS with the carry in ACC, writes
lane i's byte at DST + POS + i, leaves lane 3 in ACC, moves POS on by four, and changes nothing else. -/
def Obligations.BlockUnitProcessesFourSamples : Prop :=
  ∀ s : State, s.Inv → s.status.busy = true → s.rkind = .run4 → s.pos.toNat + 4 ≤ s.len.toNat →
    busErrAt s.busErr (s.src.toNat + 4 * s.pos.toNat) 16 .read = false →
    busErrAt s.busErr (s.dst.toNat + s.pos.toNat) 4 .write = false →
    let w := scan4 ⟨s.input s.pos.toNat, s.input (s.pos.toNat + 1), s.input (s.pos.toNat + 2),
      s.input (s.pos.toNat + 3)⟩ s.acc
    seqStep s = .next { s with
      acc := w.l3,
      mem := (((s.mem.write (s.dst.toNat + s.pos.toNat) (conv8 w.l0 s.cfg)).write
        (s.dst.toNat + s.pos.toNat + 1) (conv8 w.l1 s.cfg)).write
        (s.dst.toNat + s.pos.toNat + 2) (conv8 w.l2 s.cfg)).write
        (s.dst.toNat + s.pos.toNat + 3) (conv8 w.l3 s.cfg),
      pos := s.pos + 4 }

/-- R181, R205: a unit whose read or write is answered BusError ends the run: FADDR takes the request's address, the
error is latched, BUSY falls, DONE rises, and ACC, POS, memory and everything else stay. -/
def Obligations.BusErrorEndsTheRun : Prop :=
  ∀ s : State, s.Inv → s.status.busy = true → s.pos ≠ s.len →
    let n := if s.rkind = .run4 ∧ s.pos.toNat + 4 ≤ s.len.toNat then 4 else 1
    let src := s.src.toNat + 4 * s.pos.toNat
    let dst := s.dst.toNat + s.pos.toNat
    (busErrAt s.busErr src (4 * n) .read = true →
      seqStep s = .next { s with
        faddr := BitVec.ofNat 32 src,
        status := { s.status with
          busy := false, done := true, err := true,
          ecode := if s.status.err then s.status.ecode else .busErrRead } }) ∧
    (busErrAt s.busErr src (4 * n) .read = false → busErrAt s.busErr dst n .write = true →
      seqStep s = .next { s with
        faddr := BitVec.ofNat 32 dst,
        status := { s.status with
          busy := false, done := true, err := true,
          ecode := if s.status.err then s.status.ecode else .busErrWrite } })

/-- The frame of every SEQ step (R66, R175, R182, 10_state R32 to R34): CFG, SRC, DST, LEN, XIN, XOUT, PFX, RKIND and WIGN
stay, FADDR changes only when the run ends, and memory changes only at the output bytes of the samples the step did. -/
def Obligations.SeqStepFrame : Prop :=
  ∀ s t : State, s.Inv → s.status.busy = true → seqStep s = .next t →
    t.cfg = s.cfg ∧ t.src = s.src ∧ t.dst = s.dst ∧ t.len = s.len ∧ t.xin = s.xin ∧ t.xout = s.xout ∧ t.pfx = s.pfx ∧
    t.rkind = s.rkind ∧ t.status.wign = s.status.wign ∧ t.capVec = s.capVec ∧
    (t.status.busy = true → t.faddr = s.faddr ∧ t.status = s.status) ∧
    ∀ a, ¬(s.dst.toNat + s.pos.toNat ≤ a ∧ a < s.dst.toNat + t.pos.toNat) → t.mem.read a = s.mem.read a

/-! ### Runs -/

/-- R170, R176, R182: the contract of a stream command. From any idle state with canonical memory in which the command is
accepted, on a platform that answers no read in the input and no write in the output BusError (elsewhere it may) and with
the empty schedule, in which SEQ moves while BUSY = 1 (log 13), the command and then exactly LEN + 1 (RUN1) or LEN/4 + LEN
mod 4 + 1 (RUN4) steps end with DONE, no new error, POS = LEN, the last running sum in ACC, the conversion of every running
sum in its output byte, and every other byte of memory and every other register as before; the host has yet to read that
the run has ended (log 5). -/
def Obligations.StreamContract : Prop :=
  ∀ (kind : RunKind) (s : State), s.Inv → s.status.busy = false → s.noBusErrors → s.turns = [] →
    (kind = .run4 → s.capVec = true) → acceptCheck kind s = none →
    ∃ s0 t, exec kind.instr s = .next s0 ∧ stepMany (seqSteps kind s.len.toNat) s0 = .next t ∧
      t = { s with
        acc := accAfter kind s.input s.len.toNat s.len.toNat, pos := s.len, rkind := kind, mem := t.mem,
        status := { s.status with done := true }, openRuns := ⟨s.src, s.dst, s.len⟩ :: s.openRuns } ∧
      (∀ k < s.len.toNat, t.mem.read (s.dst.toNat + k) = conv8 (runningSum kind s.input s.len.toNat k) s.cfg) ∧
      ∀ a, ¬(s.dst.toNat ≤ a ∧ a < s.dst.toNat + s.len.toNat) → t.mem.read a = s.mem.read a

/-- R182: the progress invariant is kept by every step of the machine, host operations between the units included: while
BUSY = 1 the first POS output bytes hold the conversions of their running sums and ACC holds the last of these. -/
def Obligations.ProgressIsKeptByEveryStep : Prop :=
  ∀ s t : State, s.Inv → (s.status.busy = true → s.Progress) → step s = .next t → t.status.busy = true → t.Progress

/-- R176, R240: a run always ends. From any state the invariant allows, with no host turn scheduled, whatever requests fail,
at most LEN - POS + 1 steps bring BUSY to 0 with DONE set. -/
def Obligations.RunsAlwaysEnd : Prop :=
  ∀ s : State, s.Inv → s.status.busy = true → s.turns = [] →
    ∃ n ≤ s.len.toNat - s.pos.toNat + 1, ∃ t,
      stepMany n s = .next t ∧ t.status.busy = false ∧ t.status.done = true ∧ t.pos.toNat ≤ s.len.toNat

/-- R185: two stream commands of one kind, with one CFG, one LEN and the same input bytes, issued from any two states
whatever, write the same output bytes and leave the same ACC and POS. -/
def Obligations.RunsReadNothingLeftBehind : Prop :=
  ∀ (kind : RunKind) (s s' t t' u u' : State), s.Inv → s'.Inv → s.status.busy = false → s'.status.busy = false →
    s.noBusErrors → s'.noBusErrors → s.turns = [] → s'.turns = [] →
    (kind = .run4 → s.capVec = true ∧ s'.capVec = true) → acceptCheck kind s = none → acceptCheck kind s' = none →
    s.cfg = s'.cfg → s.len = s'.len → (∀ k < s.len.toNat, s.input k = s'.input k) →
    exec kind.instr s = .next t → exec kind.instr s' = .next t' →
    stepMany (seqSteps kind s.len.toNat) t = .next u → stepMany (seqSteps kind s.len.toNat) t' = .next u' →
    u.acc = u'.acc ∧ u.pos = u'.pos ∧
    ∀ k < s.len.toNat, u.mem.read (s.dst.toNat + k) = u'.mem.read (s'.dst.toNat + k)

/-! ### The datapath -/

/-- R102: `round32` of a nonzero real ± n * 2^-(149 + sh) is the nearest binary32 value, ties to even, infinite exactly from
half a unit above the largest finite value on, with the sign of the real, a zero result too. -/
def Obligations.Round32IsNearestTiesToEven : Prop :=
  ∀ (neg : Bool) (n sh : Nat), n ≠ 0 →
    let r : Int := if neg then -(n : Int) else n
    signBit (round32 neg n sh) = neg ∧ isNaN (round32 neg n sh) = false ∧
    (isInf (round32 neg n sh) = true ↔ n ≥ (2 ^ 25 - 1) * 2 ^ (252 + sh)) ∧
    (isFinite (round32 neg n sh) = true → ∀ p : Word, isFinite p = true →
      (val (round32 neg n sh) * 2 ^ sh - r).natAbs ≤ (val p * 2 ^ sh - r).natAbs ∧
      ((val (round32 neg n sh) * 2 ^ sh - r).natAbs = (val p * 2 ^ sh - r).natAbs →
        val p ≠ val (round32 neg n sh) → fracField (round32 neg n sh) % 2 = 0))

/-- R103: `fadd`: any NaN operand, and two opposite infinities, give the canonical NaN; one infinity gives itself; an exact
zero sum is +0.0 unless both operands are -0.0; any other sum is rounded by R102; `fadd` is commutative bit for bit and not
associative; and the rule's example. -/
def Obligations.FaddIsBinary32Addition : Prop :=
  (∀ a b : Word,
    fadd a b = fadd b a ∧
    (isNaN a = true ∨ isNaN b = true → fadd a b = 0x7FC00000#32) ∧
    (isInf a = true → isInf b = true → signBit a ≠ signBit b → fadd a b = 0x7FC00000#32) ∧
    (isInf a = true → isFinite b = true ∨ b = a → fadd a b = a) ∧
    (isFinite a = true → isFinite b = true → val a + val b = 0 →
      fadd a b = if a = 0x80000000#32 ∧ b = 0x80000000#32 then 0x80000000#32 else 0x00000000#32) ∧
    (isFinite a = true → isFinite b = true → val a + val b ≠ 0 →
      fadd a b = round32 (decide (val a + val b < 0)) (val a + val b).natAbs 0)) ∧
  (∃ a b c : Word, fadd (fadd a b) c ≠ fadd a (fadd b c)) ∧
  fadd 0x3F000000#32 0xBDCCCCCD#32 = 0x3ECCCCCD#32

/-- R101, R103: a sum that is a binary32 value is computed exactly, subnormal operands and results included (no flush to
zero); the sum of two subnormals always is. -/
def Obligations.ExactSumsAreExact : Prop :=
  ∀ a b : Word,
    (exactSum a b → isFinite (fadd a b) = true ∧ val (fadd a b) = val a + val b) ∧
    (expField a = 0 → expField b = 0 → exactSum a b)

/-- R106, R107: for every operand and CFG the product the converter converts is finite, nonnegative and at most S, the
truncated integer is at most the rounded one, which is at most one more, and both are in 0..256. -/
def Obligations.ScaledProductAndIntegerRange : Prop :=
  ∀ (x : Word) (cfg : Cfg),
    isFinite (scaled x cfg) = true ∧ signBit (scaled x cfg) = false ∧ mag (scaled x cfg) ≤ mag (scaleOf cfg) ∧
    cvtInt (scaled x cfg) false ≤ cvtInt (scaled x cfg) true ∧
    cvtInt (scaled x cfg) true ≤ cvtInt (scaled x cfg) false + 1 ∧ cvtInt (scaled x cfg) true ≤ 256

/-- R108: saturation is active only for SCALE = 1, RND = 1 and a clamped magnitude of 1.0; in every other case the
integer is at most 255 already. -/
def Obligations.SaturationOnlyAtFullScale : Prop :=
  ∀ (x : Word) (cfg : Cfg),
    cvtInt (scaled x cfg) cfg.rnd > 255 ↔ cfg.scale = true ∧ cfg.rnd = true ∧ clamp1 (fabs x) = one

/-- R115: a running sum of magnitude at least 1.0, infinite or NaN converts to 255 under every CFG. -/
def Obligations.FullCoverageIsByte255 : Prop :=
  ∀ (y : Word) (cfg : Cfg), (isFinite y = true ∧ mag y ≥ mag one) ∨ isInf y = true ∨ isNaN y = true → conv8 y cfg = 255#8

/-- R116: an all-zero input (elements +0.0 or -0.0) keeps every running sum, and every lane of every block's scan, a zero
and gives only zero bytes, on both paths and at every length. -/
def Obligations.ZeroInputGivesZeroOutput : Prop :=
  ∀ (x : Nat → Word), (∀ k, isZero (x k)) →
    (∀ kind len k cfg, isZero (runningSum kind x len k) ∧ conv8 (runningSum kind x len k) cfg = 0#8) ∧
    ∀ b i cfg, isZero ((scan4 (blockOf x b) (carryAfter x b)).lane i) ∧
      conv8 ((scan4 (blockOf x b) (carryAfter x b)).lane i) cfg = 0#8

/-- R117: the converter is monotonic in the magnitude, and for each value truncation and rounding differ by 0 or 1. -/
def Obligations.ConverterIsMonotonic : Prop :=
  (∀ (x x' : Word) (cfg : Cfg), isNaN x = false → isNaN x' = false → mag x ≤ mag x' →
    (conv8 x cfg).toNat ≤ (conv8 x' cfg).toNat) ∧
  ∀ (x : Word) (scale : Bool),
    (conv8 x { scale := scale, rnd := false }).toNat ≤ (conv8 x { scale := scale, rnd := true }).toNat ∧
    (conv8 x { scale := scale, rnd := true }).toNat ≤ (conv8 x { scale := scale, rnd := false }).toNat + 1

/-- R114: when every addition of four `step1` calls and of `step4` is exact, both paths give the same four bytes and the
same final accumulator value, up to the sign of zero; without that they may differ: the rule's DIV-1 input gives the rule's
scalar and vector bytes, here under both truncating configurations. -/
def Obligations.ScalarAndVectorAgreeWhenExact : Prop :=
  (∀ (acc : Word) (v : Lanes) (cfg : Cfg), step1ChainExact acc v → step4Exact acc v →
    (step4 acc v cfg).2.2 = convLanes (step1Chain acc v) cfg ∧
    isFinite (step4 acc v cfg).1 = true ∧ isFinite (step1Chain acc v).l3 = true ∧
    val (step4 acc v cfg).1 = val (step1Chain acc v).l3) ∧
  ∀ scale : Bool,
    let v : Lanes := ⟨0x4B800000#32, 0x3F800000#32, 0xCB800000#32, 0x3F000000#32⟩
    convLanes (step1Chain posZero v) ⟨scale, false⟩ = 0x7F00FFFF#32 ∧
    (step4 posZero v ⟨scale, false⟩).2.2 = 0x00FFFFFF#32

/-! ### Registers as the host sees them -/

/-- R230, R232: reset sets every register to its reset value in every state, a running one too; CAP and memory stay. -/
def Obligations.ResetSetsEveryRegister : Prop :=
  ∀ s : State, hostOp .reset s = .next { s with
    cfg := { scale := false, rnd := false },
    status := { busy := false, done := false, err := false, wign := false, ecode := .noError },
    acc := 0x00000000#32, src := 0x00000000#32, dst := 0x00000000#32, len := 0x00000000#32,
    xin := ⟨0x00000000#32, 0x00000000#32, 0x00000000#32, 0x00000000#32⟩, xout := 0x00000000#32,
    pfx := ⟨0x00000000#32, 0x00000000#32, 0x00000000#32, 0x00000000#32⟩,
    pos := 0x00000000#32, faddr := 0x00000000#32, rkind := .run1 }

/-- R37, with the map of R25, the fields of R26 to R28 and the codes of R201: in every state a read of a 32-bit register at an aligned offset returns the register's value by the map of R25,
reserved fields 0, and 0 at an unmapped offset; it changes no register (the host notes the value, log 6, and a STATUS read
that returns BUSY = 0 shows it the end of every run, log 5). -/
def Obligations.HostReadsReturnTheRegisters : Prop :=
  ∀ s : State,
    (∀ off : Byte, off.toNat % 4 = 0 →
      hostOp (.rd off 4) s = .next { s with
        reads := .reg off (readOffset s off) :: s.reads,
        openRuns := if off = 0x08#8 ∧ s.status.busy = false then [] else s.openRuns }) ∧
    readOffset s 0x00#8 = (if s.capVec then 1#32 else 0#32) ∧
    (readOffset s 0x04#8).toNat = s.cfg.scale.toNat + 2 * s.cfg.rnd.toNat ∧
    (readOffset s 0x08#8).toNat = s.status.busy.toNat + 2 * s.status.done.toNat + 4 * s.status.err.toNat +
      8 * s.status.wign.toNat + 16 * s.status.ecode.bits.toNat ∧
    [ErrCode.noError, .illegal, .align, .range, .overlap, .busErrRead, .busErrWrite].map ErrCode.bits =
      [0#4, 1#4, 2#4, 3#4, 4#4, 5#4, 6#4] ∧
    readOffset s 0x0C#8 = 0#32 ∧ readOffset s 0x10#8 = s.acc ∧ readOffset s 0x14#8 = s.src ∧
    readOffset s 0x18#8 = s.dst ∧ readOffset s 0x1C#8 = s.len ∧ readOffset s 0x20#8 = s.xin.l0 ∧
    readOffset s 0x24#8 = s.xin.l1 ∧ readOffset s 0x28#8 = s.xin.l2 ∧ readOffset s 0x2C#8 = s.xin.l3 ∧
    readOffset s 0x30#8 = s.xout ∧ readOffset s 0x34#8 = s.pfx.l0 ∧ readOffset s 0x38#8 = s.pfx.l1 ∧
    readOffset s 0x3C#8 = s.pfx.l2 ∧ readOffset s 0x40#8 = s.pfx.l3 ∧ readOffset s 0x44#8 = s.pos ∧
    readOffset s 0x48#8 = s.faddr ∧ ∀ off : Byte, off.toNat ≥ 0x4C → readOffset s off = 0#32

/-- R38: a host write while BUSY = 0, register by register (CMD's is the commands'; STATUS's is R39's). -/
def Obligations.HostWritesWhileIdle : Prop :=
  ∀ (s : State) (d : Word), s.status.busy = false →
    hostOp (.wr 0x04#8 4 d) s = .next { s with cfg := { scale := d.getLsbD 0, rnd := d.getLsbD 1 } } ∧
    hostOp (.wr 0x10#8 4 d) s = .next { s with acc := d } ∧
    hostOp (.wr 0x14#8 4 d) s = .next { s with src := d } ∧
    hostOp (.wr 0x18#8 4 d) s = .next { s with dst := d } ∧
    hostOp (.wr 0x1C#8 4 d) s = .next { s with len := d } ∧
    hostOp (.wr 0x20#8 4 d) s = .next { s with xin := { s.xin with l0 := d } } ∧
    hostOp (.wr 0x24#8 4 d) s = .next { s with xin := { s.xin with l1 := d } } ∧
    hostOp (.wr 0x28#8 4 d) s = .next { s with xin := { s.xin with l2 := d } } ∧
    hostOp (.wr 0x2C#8 4 d) s = .next { s with xin := { s.xin with l3 := d } } ∧
    hostOp (.wr 0x08#8 4 d) s = .next (writeStatus d s) ∧
    (∀ i, decode s.capVec d = .ok i → hostOp (.wr 0x0C#8 4 d) s = exec i s) ∧
    ∀ off : Byte, off.toNat % 4 = 0 → off.toNat = 0x00 ∨ off.toNat ≥ 0x30 → hostOp (.wr off 4 d) s = .next s

/-- R39: a host write to STATUS, in every state: bits 1, 2 and 3 clear DONE, ERR with ECODE, and WIGN; nothing is ever
set, BUSY never changes, and the other bits of the data are ignored. -/
def Obligations.StatusWritesOneToClear : Prop :=
  ∀ (s : State) (d : Word), ∃ st : Status, hostOp (.wr 0x08#8 4 d) s = .next { s with status := st } ∧
    st.busy = s.status.busy ∧
    st.done = (if d.getLsbD 1 then false else s.status.done) ∧
    st.err = (if d.getLsbD 2 then false else s.status.err) ∧
    st.ecode = (if d.getLsbD 2 then .noError else s.status.ecode) ∧
    st.wign = (if d.getLsbD 3 then false else s.status.wign)

/-- R40: while BUSY = 1 a host write to CFG, CMD, ACC, SRC, DST, LEN or XIN0 to XIN3 only sets WIGN; one to a read-only or
unmapped offset does nothing; one to STATUS is not ignored. -/
def Obligations.HostWritesWhileBusyAreIgnored : Prop :=
  ∀ (s : State) (d : Word), s.status.busy = true →
    (∀ off : Byte, off ∈ [0x04#8, 0x0C#8, 0x10#8, 0x14#8, 0x18#8, 0x1C#8, 0x20#8, 0x24#8, 0x28#8, 0x2C#8] →
      hostOp (.wr off 4 d) s = .next { s with status := { s.status with wign := true } }) ∧
    (∀ off : Byte, off.toNat % 4 = 0 → off.toNat = 0x00 ∨ off.toNat ≥ 0x30 → hostOp (.wr off 4 d) s = .next s) ∧
    hostOp (.wr 0x08#8 4 d) s = .next (writeStatus d s)

/-- R84 (93 U11): a host register access that is not 32 bits at a 4-byte-aligned offset is refused by name; every other
register access completes. -/
def Obligations.OnlyAlignedWordAccessesAreTransactions : Prop :=
  ∀ (s : State) (off : Byte) (size : Nat) (d : Word),
    (size ≠ 4 ∨ off.toNat % 4 ≠ 0 →
      hostOp (.rd off size) s = .refused (.registerAccessUndefined off size) ∧
      hostOp (.wr off size d) s = .refused (.registerAccessUndefined off size)) ∧
    (off.toNat % 4 = 0 → (∃ t, hostOp (.rd off 4) s = .next t) ∧ ∃ t, hostOp (.wr off 4 d) s = .next t)

/-- R89: POLL is a read that is repeated until the field equals the value; a poll changes only the host's
own fields, as a read does (log 14, 5, 6). -/
def Obligations.PollRepeatsUntilTheFieldMatches : Prop :=
  ∀ (s : State) (off : Byte) (lo width v : Nat) (ops : List HostOp), off.toNat % 4 = 0 →
    s.hostProg = .poll off lo width v :: ops →
    hostStep s = .next { s with
      reads := .reg off (readOffset s off) :: s.reads,
      openRuns := if off = 0x08#8 ∧ s.status.busy = false then [] else s.openRuns,
      hostProg := if (readOffset s off).toNat / 2 ^ lo % 2 ^ width = v then ops else s.hostProg }

/-- The model's choice for the races of R70 item 4 and R236 (log 5): while the host has not read that a stream command has
ended, its write to that command's input, or any access of its to that command's output, stops with a fault; every other
host memory access performs, on one byte (log 10). -/
def Obligations.RacesStopAndOtherAccessesPerform : Prop :=
  ∀ (s : State) (addr : Word) (b : Byte),
    let inIn (r : Buffers) := r.src.toNat ≤ addr.toNat ∧ addr.toNat < r.src.toNat + 4 * r.len.toNat
    let inOut (r : Buffers) := r.dst.toNat ≤ addr.toNat ∧ addr.toNat < r.dst.toNat + r.len.toNat
    ((∃ r ∈ s.openRuns, inIn r) → hostOp (.memWr addr b) s = .fault (.raceOnInput addr)) ∧
    ((∃ r ∈ s.openRuns, inOut r) → (∀ r ∈ s.openRuns, ¬inIn r) →
      hostOp (.memWr addr b) s = .fault (.raceOnOutput addr)) ∧
    ((∃ r ∈ s.openRuns, inOut r) → hostOp (.memRd addr) s = .fault (.raceOnOutput addr)) ∧
    ((∀ r ∈ s.openRuns, ¬inOut r) →
      hostOp (.memRd addr) s = .next { s with reads := .mem addr (s.mem.read addr.toNat) :: s.reads }) ∧
    ((∀ r ∈ s.openRuns, ¬inOut r ∧ ¬inIn r) →
      hostOp (.memWr addr b) s = .next { s with mem := s.mem.write addr.toNat b })

/-- R236 (log 5): a stream command's race window opens exactly when it is accepted, and the windows close only by a host read
of STATUS that returns BUSY = 0: neither the end of the run nor reset nor any other step changes them. -/
def Obligations.RaceWindowRunsFromAcceptanceToTheStatusRead : Prop :=
  ∀ s t : State, step s = .next t →
    (s.status.busy = false → t.status.busy = true → t.openRuns = ⟨s.src, s.dst, s.len⟩ :: s.openRuns) ∧
    (¬(s.status.busy = false ∧ t.status.busy = true) → t.openRuns ≠ s.openRuns →
      s.status.busy = false ∧ t.openRuns = [] ∧
      ∃ ops, s.hostProg = .rd 0x08#8 4 :: ops ∨ ∃ lo width v, s.hostProg = .poll 0x08#8 lo width v :: ops)

/-! ### The whole machine -/

/-- R26: CAP is constant: no step changes it. That no step changes the platform's BUS_ERR either is the model's choice
(DESIGN CHOICE, log 3). -/
def Obligations.CapAndPlatformAreConstant : Prop :=
  ∀ s t : State, step s = .next t → t.capVec = s.capVec ∧ t.busErr = s.busErr

/-- R31, R175, R40: while a run goes on no step changes CFG, SRC, DST, LEN, XIN, XOUT, PFX or RKIND, whatever the host does. -/
def Obligations.OperandsAreConstantDuringARun : Prop :=
  ∀ s t : State, s.status.busy = true → step s = .next t → t.status.busy = true →
    t.cfg = s.cfg ∧ t.src = s.src ∧ t.dst = s.dst ∧ t.len = s.len ∧ t.xin = s.xin ∧ t.xout = s.xout ∧ t.pfx = s.pfx ∧
    t.rkind = s.rkind

/-- R36, R205: FADDR changes only to the address of a request of the running unit that is answered BusError, which ends the
run, or by reset, to 0. -/
def Obligations.FaddrChangesOnlyByBusErrorOrReset : Prop :=
  ∀ s t : State, step s = .next t → t.faddr ≠ s.faddr →
    (s.status.busy = true ∧ t.status.busy = false ∧ t.status.done = true ∧ t.status.err = true ∧
      ∃ addr dir, s.unitRequestFails addr dir ∧ t.faddr = BitVec.ofNat 32 addr) ∨
    ((∃ ops, s.hostProg = .reset :: ops) ∧ t.faddr = 0x00000000#32)

/-- R204, R208, R230: a latched error goes only by a host write to STATUS with bit 2 set or by reset, and while it is
latched its code does not change. -/
def Obligations.ErrorsClearOnlyByHostOrReset : Prop :=
  ∀ s t : State, step s = .next t → s.status.err = true →
    (t.status.err = true ∧ t.status.ecode = s.status.ecode) ∨
    (∃ ops, s.hostProg = .reset :: ops) ∨
    ∃ d ops, s.hostProg = .wr 0x08#8 4 d :: ops ∧ d.getLsbD 2 = true

/-- R140, R66, 20_memory R60: whatever the step, a byte of memory changes only in the output range of a running command or
by the host's own write to that byte. -/
def Obligations.MemoryChangesOnlyInTheOutputOrByTheHost : Prop :=
  ∀ s t : State, s.Inv → step s = .next t → ∀ a, t.mem.read a ≠ s.mem.read a →
    (s.status.busy = true ∧ inOutputRange s a = true) ∨
    ∃ addr b ops, s.hostProg = .memWr addr b :: ops ∧ a = addr.toNat

/-- 10_state R28, 42_stream R175, R180, R181, 70_reset R232: BUSY rises only by a write of RUN1's or RUN4's word to CMD that
passes the acceptance checks, and falls only with DONE set or by reset. -/
def Obligations.BusyChangesOnlyByAcceptanceAndEnd : Prop :=
  ∀ s t : State, step s = .next t →
    (s.status.busy = false → t.status.busy = true →
      ∃ ops, (s.hostProg = .wr 0x0C#8 4 0x00000006#32 :: ops ∧ acceptCheck .run1 s = none) ∨
        (s.hostProg = .wr 0x0C#8 4 0x00000007#32 :: ops ∧ s.capVec = true ∧ acceptCheck .run4 s = none)) ∧
    (s.status.busy = true → t.status.busy = false → t.status.done = true ∨ ∃ ops, s.hostProg = .reset :: ops)

/-- The invariant holds after reset. -/
def Obligations.ResetMeetsTheInvariant : Prop := State.reset.Inv

/-- 10_state R28, R35, 42_stream R171 to R177: from every state that meets the invariant, a step gives a state that meets
it: memory keeps its canonical form, ECODE is 0 exactly when ERR is 0, BUSY implies not DONE, and a running command keeps
aligned, in-range, disjoint operands with POS <= LEN; and, of the model's own field, its buffers are closed to the host
(log 5). -/
def Obligations.InvariantIsKeptByEveryStep : Prop :=
  ∀ s t : State, s.Inv → step s = .next t → t.Inv

/-- A machine that meets the invariant stops only for a race or a host access that is no register transaction; SEQ never
makes a memory request outside the port's forms (R64: "Only those forms are issued"; log 5, log 7, log 8). -/
def Obligations.EveryStepIsSafe : Prop := ∀ s : State, s.Inv → safeOutcome (step s)
end

