-- ==== Sys2Proof/Laws/BusErr.lean ====
section
/-! SUPPORT. The list of records that State holds can express every platform predicate BUS_ERR (log 3). -/

namespace Sys2Proof.Machine

open Sys2Proof

/-- Every predicate on the requests there are (addresses below `2^32`, the sizes of 20_memory R64 and R65) is the one of
some list of records. -/
theorem busErr_expresses_every_predicate (p : Nat → Nat → Dir → Bool) :
    ∃ rules, ∀ addr < Config.memSize, ∀ size ∈ [1, 4, 16], ∀ dir, busErrAt rules addr size dir = p addr size dir := by
  refine ⟨(List.range Config.memSize).flatMap fun a => [1, 4, 16].flatMap fun n => [Dir.read, Dir.write].flatMap fun d =>
    if p a n d then [⟨a, a, n, d⟩] else [], fun addr ha size hs dir => ?_⟩
  rw [Bool.eq_iff_iff, busErrAt, List.any_eq_true]
  constructor
  · rintro ⟨r, hr, hm⟩
    simp only [List.mem_flatMap] at hr
    obtain ⟨a, -, n, -, d, -, hr⟩ := hr
    split at hr
    · simp only [List.mem_singleton] at hr
      subst hr
      simp only [Bool.and_eq_true, decide_eq_true_eq, beq_iff_eq] at hm
      obtain ⟨⟨⟨h1, h2⟩, rfl⟩, rfl⟩ := hm
      rwa [Nat.le_antisymm h2 h1]
    · cases hr
  · intro hp
    refine ⟨⟨addr, addr, size, dir⟩, ?_, by simp⟩
    simp only [List.mem_flatMap]
    refine ⟨addr, List.mem_range.2 ha, size, hs, dir, by cases dir <;> simp, ?_⟩
    rw [if_pos hp]
    exact List.mem_singleton.2 rfl

end Sys2Proof.Machine
end

