-- ==== Sys2Proof/Laws/Float.lean ====
section
/-! SUPPORT. binary32 patterns and rounding: the fields of a pattern, the magnitudes there are, and that `round32` keeps
the magnitudes there are and is monotonic. -/

namespace Sys2Proof.Machine

open Sys2Proof

/-! ### The fields of a pattern -/

theorem expField_eq (p : Word) : expField p = p.toNat / 2 ^ 23 % 2 ^ 8 := by
  simp [expField, Nat.shiftRight_eq_div_pow]

theorem fracField_eq (p : Word) : fracField p = p.toNat % 2 ^ 23 := by
  simp [fracField]

theorem signBit_eq (p : Word) : signBit p = decide (2 ^ 31 ≤ p.toNat) := by
  rw [signBit, BitVec.getLsbD, Nat.testBit_eq_decide_div_mod_eq]
  have := p.isLt
  congr 1
  rw [eq_iff_iff]
  omega

theorem expField_lt (p : Word) : expField p < 256 := by
  rw [expField_eq]; omega

theorem fracField_lt (p : Word) : fracField p < 2 ^ 23 := by
  rw [fracField_eq]; omega

/-- A pattern is its three fields (40_datapath R100). -/
theorem toNat_fields (p : Word) :
    p.toNat = (signBit p).toNat * 2 ^ 31 + expField p * 2 ^ 23 + fracField p := by
  have := p.isLt
  rw [expField_eq, fracField_eq, signBit_eq]
  by_cases h : 2 ^ 31 ≤ p.toNat
  · rw [decide_eq_true h, Bool.toNat_true]; omega
  · rw [decide_eq_false h, Bool.toNat_false]; omega

theorem packFields_toNat {neg : Bool} {e t : Nat} (he : e < 2 ^ 8) (ht : t < 2 ^ 23) :
    (packFields neg e t).toNat = neg.toNat * 2 ^ 31 + e * 2 ^ 23 + t := by
  have h : (packFields neg e t).toNat =
      (BitVec.ofBool neg ++ BitVec.ofNat 8 e ++ BitVec.ofNat 23 t : BitVec (1 + 8 + 23)).toNat := rfl
  rw [h, BitVec.toNat_append, BitVec.toNat_append, BitVec.toNat_ofBool, BitVec.toNat_ofNat, BitVec.toNat_ofNat,
    Nat.mod_eq_of_lt he, Nat.mod_eq_of_lt ht, ← Nat.shiftLeft_add_eq_or_of_lt he, ← Nat.shiftLeft_add_eq_or_of_lt ht,
    Nat.shiftLeft_eq, Nat.shiftLeft_eq]
  omega

theorem packFields_fields {neg : Bool} {e t : Nat} (he : e < 2 ^ 8) (ht : t < 2 ^ 23) :
    signBit (packFields neg e t) = neg ∧ expField (packFields neg e t) = e ∧ fracField (packFields neg e t) = t := by
  rw [signBit_eq, expField_eq, fracField_eq, packFields_toNat he ht]
  cases neg
  · refine ⟨?_, ?_, ?_⟩
    · rw [decide_eq_false]; rw [Bool.toNat_false]; omega
    · rw [Bool.toNat_false]; omega
    · rw [Bool.toNat_false]; omega
  · refine ⟨?_, ?_, ?_⟩
    · rw [decide_eq_true]; rw [Bool.toNat_true]; omega
    · rw [Bool.toNat_true]; omega
    · rw [Bool.toNat_true]; omega

/-! ### The magnitudes there are -/

/-- `v * 2^-149` is a finite binary32 magnitude: at most 24 significant bits, below `2^277`. -/
def IsMag (v : Nat) : Prop := v < 2 ^ 277 ∧ ∃ m e, m < 2 ^ 24 ∧ v = m * 2 ^ e

theorem isFinite_iff {p : Word} : isFinite p = true ↔ expField p < 255 := by
  have := expField_lt p
  simp only [isFinite, bne_iff_ne]
  omega

theorem isMag_mag {p : Word} (h : isFinite p = true) : IsMag (mag p) := by
  rw [isFinite_iff] at h
  have hf := fracField_lt p
  unfold mag
  split
  · exact ⟨Nat.lt_trans hf (Nat.pow_lt_pow_right (by omega) (by omega)), fracField p, 0, by omega, by simp⟩
  · refine ⟨?_, _, _, ?_, rfl⟩
    · calc (2 ^ 23 + fracField p) * 2 ^ (expField p - 1)
          < 2 ^ 24 * 2 ^ (expField p - 1) := Nat.mul_lt_mul_of_pos_right (by omega) (Nat.two_pow_pos _)
        _ ≤ 2 ^ 24 * 2 ^ 253 := Nat.mul_le_mul_left _ (Nat.pow_le_pow_right (by omega) (by omega))
        _ = 2 ^ 277 := by rw [← Nat.pow_add]
    · omega

/-- `bits32` of a magnitude is the finite pattern of that magnitude and sign. -/
theorem bits32_spec {v : Nat} (neg : Bool) (h : IsMag v) :
    isFinite (bits32 neg v) = true ∧ mag (bits32 neg v) = v ∧ signBit (bits32 neg v) = neg := by
  obtain ⟨hlt, m, e, hm, rfl⟩ := h
  unfold bits32
  split
  · rename_i hs
    obtain ⟨h1, h2, h3⟩ := packFields_fields (neg := neg) (e := 0) (t := m * 2 ^ e) (by omega) hs
    refine ⟨by rw [isFinite_iff, h2]; omega, ?_, h1⟩
    rw [mag, h2, if_pos rfl, h3]
  · rename_i hs
    have hv : m * 2 ^ e ≠ 0 := by omega
    have hl : 23 ≤ (m * 2 ^ e).log2 := (Nat.le_log2 hv).2 (by omega)
    have hl' : (m * 2 ^ e).log2 < 277 := (Nat.log2_lt hv).2 hlt
    have hlow : 2 ^ (m * 2 ^ e).log2 ≤ m * 2 ^ e := Nat.log2_self_le hv
    have hup : m * 2 ^ e < 2 ^ ((m * 2 ^ e).log2 + 1) := Nat.lt_log2_self
    generalize hL : (m * 2 ^ e).log2 = l at *
    -- the unit of the last place divides the magnitude: it is `c` units, `2^23 <= c < 2^24`
    have hle : l - 23 ≤ e := by
      have h1 : m * 2 ^ e < 2 ^ 24 * 2 ^ e := Nat.mul_lt_mul_of_pos_right hm (Nat.two_pow_pos e)
      rw [← Nat.pow_add] at h1
      have h2 : l < 24 + e := (Nat.pow_lt_pow_iff_right (by omega)).1 (Nat.lt_of_le_of_lt hlow h1)
      omega
    obtain ⟨c, hc⟩ : ∃ c, m * 2 ^ e = c * 2 ^ (l - 23) :=
      ⟨m * 2 ^ (e - (l - 23)), by rw [Nat.mul_assoc, ← Nat.pow_add]; congr 2; omega⟩
    rw [hc] at hlow hup ⊢
    have hpos := Nat.two_pow_pos (l - 23)
    have hc1 : 2 ^ 23 ≤ c := by
      rw [show l = 23 + (l - 23) by omega, Nat.pow_add, show 23 + (l - 23) - 23 = l - 23 by omega] at hlow
      exact Nat.le_of_mul_le_mul_right hlow hpos
    have hc2 : c < 2 ^ 24 := by
      rw [show l + 1 = 24 + (l - 23) by omega, Nat.pow_add] at hup
      exact Nat.lt_of_mul_lt_mul_right hup
    rw [Nat.mul_div_cancel _ hpos]
    obtain ⟨h1, h2, h3⟩ := packFields_fields (neg := neg) (e := l - 22) (t := c - 2 ^ 23) (by omega) (by omega)
    refine ⟨by rw [isFinite_iff, h2]; omega, ?_, h1⟩
    rw [mag, h2, h3, if_neg (by omega), show 2 ^ 23 + (c - 2 ^ 23) = c by omega, show l - 22 - 1 = l - 23 by omega]

/-! ### Rounding to nearest, ties to even -/

/-- Rounding moves by at most half a unit. -/
theorem roundHalfEven_bounds (n d : Nat) :
    2 * (roundHalfEven n d * 2 ^ d) ≤ 2 * n + 2 ^ d ∧ 2 * n ≤ 2 * (roundHalfEven n d * 2 ^ d) + 2 ^ d := by
  have hn := Nat.div_add_mod n (2 ^ d)
  have hm := Nat.mod_lt n (Nat.two_pow_pos d)
  unfold roundHalfEven
  simp only
  rw [Nat.mul_comm] at hn
  split
  · rw [Nat.add_mul, Nat.one_mul]; omega
  · omega

/-- A value of whole units is kept. -/
@[simp] theorem roundHalfEven_exact (q d : Nat) : roundHalfEven (q * 2 ^ d) d = q := by
  have := Nat.two_pow_pos d
  unfold roundHalfEven
  simp only [Nat.mul_mod_left, Nat.mul_div_cancel q this]
  rw [if_neg]
  omega

/-- Rounding is monotonic. -/
theorem roundHalfEven_mono {n n' : Nat} (d : Nat) (h : n ≤ n') : roundHalfEven n d ≤ roundHalfEven n' d := by
  have hd := Nat.two_pow_pos d
  have hq : n / 2 ^ d ≤ n' / 2 ^ d := Nat.div_le_div_right h
  have e := Nat.div_add_mod n (2 ^ d)
  have e' := Nat.div_add_mod n' (2 ^ d)
  unfold roundHalfEven
  simp only
  rcases Nat.lt_or_eq_of_le hq with hlt | heq
  · split <;> split <;> omega
  · rw [← heq] at e' ⊢
    have : n % 2 ^ d ≤ n' % 2 ^ d := by omega
    split <;> split <;> omega

/-- A value at or above a number of units rounds at or above it, and one at or below rounds at or below. -/
theorem le_roundHalfEven {n q d : Nat} (h : q * 2 ^ d ≤ n) : q ≤ roundHalfEven n d := by
  simpa using roundHalfEven_mono d h

theorem roundHalfEven_le {n q d : Nat} (h : n ≤ q * 2 ^ d) : roundHalfEven n d ≤ q := by
  simpa using roundHalfEven_mono d h

/-- Among whole numbers of units, rounding picks a nearest, and of two nearest the even one. -/
theorem roundHalfEven_nearest (n d k : Nat) :
    ((roundHalfEven n d * 2 ^ d : Nat) - (n : Int)).natAbs ≤ ((k * 2 ^ d : Nat) - (n : Int)).natAbs ∧
    (((roundHalfEven n d * 2 ^ d : Nat) - (n : Int)).natAbs = ((k * 2 ^ d : Nat) - (n : Int)).natAbs →
      k ≠ roundHalfEven n d → roundHalfEven n d % 2 = 0) := by
  have hn := Nat.div_add_mod n (2 ^ d)
  have hm := Nat.mod_lt n (Nat.two_pow_pos d)
  have hd := Nat.two_pow_pos d
  unfold roundHalfEven
  simp only
  rw [Nat.mul_comm] at hn
  generalize n / 2 ^ d = q at *
  generalize n % 2 ^ d = f at *
  generalize 2 ^ d = u at *
  have hk : k * u = q * u ∧ k = q ∨ k * u = q * u + u ∧ k = q + 1 ∨ k * u + u ≤ q * u ∧ k < q ∨ q * u + 2 * u ≤ k * u ∧ q + 1 < k := by
    rcases Nat.lt_trichotomy k q with h | h | h
    · right; right; left
      have := Nat.mul_le_mul_right u (show k + 1 ≤ q by omega)
      rw [Nat.add_mul] at this; omega
    · left; subst h; exact ⟨rfl, rfl⟩
    · rcases Nat.eq_or_lt_of_le (show q + 1 ≤ k by omega) with h' | h'
      · right; left; subst h'; rw [Nat.add_mul]; omega
      · right; right; right
        have := Nat.mul_le_mul_right u (show q + 2 ≤ k by omega)
        rw [Nat.add_mul] at this; omega
  generalize k * u = ku at *
  have e1 : (q + 1) * u = q * u + u := by rw [Nat.add_mul]; omega
  split
  · rw [e1]; generalize q * u = qu at *; omega
  · generalize q * u = qu at *; omega

/-! ### `round32` -/

/-- The magnitude `round32` rounds `n * 2^-(149 + sh)` to, in units of `2^-149`, before overflow (40_datapath R102). -/
def roundMag (n sh : Nat) : Nat := roundHalfEven n (ulpShift n sh) * 2 ^ (ulpShift n sh - sh)

theorem round32_eq (neg : Bool) (n sh : Nat) :
    round32 neg n sh =
      if roundMag n sh ≥ 2 ^ 277 then infOf neg
      else if roundMag n sh = 0 then zeroOf neg else bits32 neg (roundMag n sh) := rfl

theorem ulpShift_ge (n sh : Nat) : sh ≤ ulpShift n sh := Nat.le_max_right _ _

/-- The rounded value counted in the operand's units. -/
theorem roundMag_mul (n sh : Nat) : roundMag n sh * 2 ^ sh = roundHalfEven n (ulpShift n sh) * 2 ^ ulpShift n sh := by
  have := ulpShift_ge n sh
  rw [roundMag, Nat.mul_assoc, ← Nat.pow_add]
  congr 2
  omega

theorem lt_ulp (n sh : Nat) : n < 2 ^ 24 * 2 ^ ulpShift n sh := by
  rw [← Nat.pow_add]
  refine Nat.lt_of_lt_of_le Nat.lt_log2_self (Nat.pow_le_pow_right (by omega) ?_)
  have : n.log2 - 23 ≤ ulpShift n sh := Nat.le_max_left _ _
  omega

theorem ulp_le {n sh : Nat} (hn : n ≠ 0) (h : sh < ulpShift n sh) : 2 ^ 23 * 2 ^ ulpShift n sh ≤ n := by
  rw [← Nat.pow_add]
  refine Nat.le_trans (Nat.pow_le_pow_right (by omega) ?_) (Nat.log2_self_le hn)
  unfold ulpShift at h ⊢
  omega

/-- A magnitude with 24 significant bits, any exponent: what `round32` rounds to before overflow. -/
def IsGrid (v : Nat) : Prop := ∃ m e, m < 2 ^ 24 ∧ v = m * 2 ^ e

/-- `roundMag` picks a nearest grid value, and at a tie the one whose count of units is even. -/
theorem roundMag_nearest (n sh : Nat) {p : Nat} (hp : IsGrid p) :
    ((roundMag n sh * 2 ^ sh : Nat) - (n : Int)).natAbs ≤ ((p * 2 ^ sh : Nat) - (n : Int)).natAbs ∧
    (((roundMag n sh * 2 ^ sh : Nat) - (n : Int)).natAbs = ((p * 2 ^ sh : Nat) - (n : Int)).natAbs →
      p ≠ roundMag n sh → roundHalfEven n (ulpShift n sh) % 2 = 0) := by
  obtain ⟨m, e, hm, rfl⟩ := hp
  rw [roundMag_mul]
  have hge := ulpShift_ge n sh
  rcases Nat.lt_or_ge (e + sh) (ulpShift n sh) with hlt | hle
  · have hn : n ≠ 0 := by rintro rfl; simp [ulpShift] at hlt
    have hlow := ulp_le hn (show sh < ulpShift n sh by omega)
    have hq := le_roundHalfEven hlow
    have hb := roundHalfEven_bounds n (ulpShift n sh)
    have hP : m * 2 ^ e * 2 ^ sh < 2 ^ 23 * 2 ^ ulpShift n sh := by
      rw [Nat.mul_assoc, ← Nat.pow_add]
      calc m * 2 ^ (e + sh) < 2 ^ 24 * 2 ^ (e + sh) := Nat.mul_lt_mul_of_pos_right hm (Nat.two_pow_pos _)
        _ = 2 ^ 23 * 2 ^ (e + sh + 1) := by rw [Nat.pow_succ 2 (e + sh)]; omega
        _ ≤ _ := Nat.mul_le_mul_left _ (Nat.pow_le_pow_right (by omega) hlt)
    have hn' := roundHalfEven_nearest n (ulpShift n sh) (2 ^ 23)
    generalize m * 2 ^ e * 2 ^ sh = P at *
    generalize roundHalfEven n (ulpShift n sh) * 2 ^ ulpShift n sh = R at *
    generalize 2 ^ 23 * 2 ^ ulpShift n sh = L at *
    omega
  · have hex : m * 2 ^ e * 2 ^ sh = m * 2 ^ (e + sh - ulpShift n sh) * 2 ^ ulpShift n sh := by
      rw [Nat.mul_assoc, Nat.mul_assoc, ← Nat.pow_add, ← Nat.pow_add, Nat.sub_add_cancel hle]
    rw [hex]
    have := roundHalfEven_nearest n (ulpShift n sh) (m * 2 ^ (e + sh - ulpShift n sh))
    refine ⟨this.1, fun h1 h2 => this.2 h1 ?_⟩
    rintro h3
    apply h2
    apply Nat.eq_of_mul_eq_mul_right (Nat.two_pow_pos sh)
    rw [roundMag_mul, hex, h3]

/-- Every magnitude there is, is on the grid. -/
theorem IsMag.grid {v : Nat} (h : IsMag v) : IsGrid v := h.2

/-- `roundMag` answers a grid value. -/
theorem isGrid_roundMag (n sh : Nat) : IsGrid (roundMag n sh) := by
  have hle : roundHalfEven n (ulpShift n sh) ≤ 2 ^ 24 := roundHalfEven_le (Nat.le_of_lt (lt_ulp n sh))
  rcases Nat.lt_or_eq_of_le hle with hlt | heq
  · exact ⟨_, _, hlt, rfl⟩
  · refine ⟨1, 24 + (ulpShift n sh - sh), by omega, ?_⟩
    rw [roundMag, heq, Nat.one_mul, ← Nat.pow_add]

/-- Rounding is monotonic. -/
theorem roundMag_mono {n n' : Nat} (sh : Nat) (h : n ≤ n') : roundMag n sh ≤ roundMag n' sh := by
  rcases Nat.eq_or_lt_of_le h with rfl | hlt
  · exact Nat.le_refl _
  · refine Nat.le_of_not_lt fun hgt => ?_
    have h1 := (roundMag_nearest n sh (isGrid_roundMag n' sh)).1
    have h2 := (roundMag_nearest n' sh (isGrid_roundMag n sh)).1
    have h3 := Nat.mul_lt_mul_of_pos_right hgt (Nat.two_pow_pos sh)
    omega

/-- `round32` overflows exactly from half a unit above the largest finite magnitude on (40_datapath R102 step 5). -/
theorem roundMag_ge_iff (n sh : Nat) : roundMag n sh ≥ 2 ^ 277 ↔ n ≥ (2 ^ 25 - 1) * 2 ^ (252 + sh) := by
  constructor
  · intro h
    refine Nat.le_of_not_lt fun hlt => ?_
    -- below, the largest finite magnitude is strictly nearer
    have hg : IsGrid ((2 ^ 24 - 1) * 2 ^ 253) := ⟨_, _, by omega, rfl⟩
    have h1 := (roundMag_nearest n sh hg).1
    have h3 := Nat.mul_le_mul_right (2 ^ sh) h
    have e1 : (2 ^ 25 - 1) * 2 ^ (252 + sh) = (2 ^ 25 - 1) * 2 ^ 252 * 2 ^ sh := by rw [Nat.pow_add, Nat.mul_assoc]
    rw [e1] at hlt
    generalize roundMag n sh * 2 ^ sh = R at *
    have e2 : 2 ^ 277 * 2 ^ sh = 2 ^ 25 * (2 ^ 252 * 2 ^ sh) := by rw [← Nat.mul_assoc, show (277 : Nat) = 25 + 252 by omega, Nat.pow_add 2 25 252]
    have e3 : (2 ^ 24 - 1) * 2 ^ 253 * 2 ^ sh = (2 ^ 25 - 2) * (2 ^ 252 * 2 ^ sh) := by
      rw [show (2 : Nat) ^ 253 = 2 * 2 ^ 252 by rw [Nat.pow_succ 2 252]; omega]
      generalize (2 : Nat) ^ 252 = W; rw [← Nat.mul_assoc, ← Nat.mul_assoc, show (2 ^ 24 - 1) * 2 = 2 ^ 25 - 2 by decide]
    rw [Nat.mul_assoc] at hlt
    rw [e3] at h1; rw [e2] at h3
    generalize 2 ^ 252 * 2 ^ sh = U at *
    omega
  · intro h
    refine Nat.le_trans ?_ (roundMag_mono sh h)
    have hlog : ((2 ^ 25 - 1) * 2 ^ (252 + sh)).log2 = 24 + (252 + sh) := by
      rw [Nat.log2_eq_iff (by have := Nat.two_pow_pos (252 + sh); omega)]
      rw [Nat.pow_add, show 24 + (252 + sh) + 1 = 25 + (252 + sh) by omega, Nat.pow_add 2 25]
      have := Nat.two_pow_pos (252 + sh)
      constructor
      · exact Nat.mul_le_mul_right _ (by omega)
      · exact Nat.mul_lt_mul_of_pos_right (by omega) this
    have hu : ulpShift ((2 ^ 25 - 1) * 2 ^ (252 + sh)) sh = 253 + sh := by unfold ulpShift; rw [hlog]; omega
    unfold roundMag
    rw [hu]
    have : roundHalfEven ((2 ^ 25 - 1) * 2 ^ (252 + sh)) (253 + sh) = 2 ^ 24 := by
      have hd : (2 ^ 25 - 1) * 2 ^ (252 + sh) / 2 ^ (253 + sh) = 2 ^ 24 - 1 := by
        rw [show 253 + sh = 252 + sh + 1 by omega, Nat.pow_succ 2 (252 + sh)]
        have := Nat.two_pow_pos (252 + sh)
        rw [Nat.mul_comm (2 ^ (252 + sh)) 2, Nat.mul_div_mul_right _ _ this]
        decide
      have hm : (2 ^ 25 - 1) * 2 ^ (252 + sh) % 2 ^ (253 + sh) = 2 ^ (252 + sh) := by
        rw [show 253 + sh = 252 + sh + 1 by omega, Nat.pow_succ 2 (252 + sh)]
        rw [Nat.mul_comm (2 ^ (252 + sh)) 2, Nat.mul_mod_mul_right]
        omega
      unfold roundHalfEven
      simp only
      rw [hd, hm, show 253 + sh = 252 + sh + 1 by omega, Nat.pow_succ 2 (252 + sh), if_pos (.inr ⟨Nat.mul_comm _ _, by decide⟩)]
      decide
    rw [this, show 253 + sh - sh = 253 by omega, ← Nat.pow_add]
/-- A rounded magnitude that does not overflow is one there is. -/
theorem isMag_roundMag {n sh : Nat} (h : roundMag n sh < 2 ^ 277) : IsMag (roundMag n sh) := ⟨h, isGrid_roundMag n sh⟩

theorem isMag_zero : IsMag 0 := ⟨Nat.two_pow_pos _, 0, 0, by omega, by simp⟩

/-- What `round32` is when it does not overflow. -/
theorem round32_finite {neg : Bool} {n sh : Nat} (h : roundMag n sh < 2 ^ 277) :
    isFinite (round32 neg n sh) = true ∧ mag (round32 neg n sh) = roundMag n sh ∧ signBit (round32 neg n sh) = neg := by
  rw [round32_eq, if_neg (by omega)]
  split
  · rename_i h0
    rw [h0]
    cases neg <;> decide
  · exact bits32_spec neg (isMag_roundMag h)

/-- `round32` keeps a value that is a magnitude there is. -/
theorem roundMag_exact {v sh : Nat} (h : IsMag v) : roundMag (v * 2 ^ sh) sh = v := by
  obtain ⟨-, m, e, hm, rfl⟩ := h
  apply Nat.eq_of_mul_eq_mul_right (Nat.two_pow_pos sh)
  rw [roundMag_mul]
  -- the value is a whole number of units of the last place
  suffices hle : m = 0 ∨ ulpShift (m * 2 ^ e * 2 ^ sh) sh ≤ e + sh by
    generalize ulpShift (m * 2 ^ e * 2 ^ sh) sh = d at hle ⊢
    obtain ⟨q, hq⟩ : ∃ q, m * 2 ^ e * 2 ^ sh = q * 2 ^ d := by
      rcases hle with rfl | hle
      · exact ⟨0, by simp⟩
      · refine ⟨m * 2 ^ (e + sh - d), ?_⟩
        rw [Nat.mul_assoc, Nat.mul_assoc, ← Nat.pow_add, ← Nat.pow_add, Nat.sub_add_cancel hle]
    rw [hq, roundHalfEven_exact]
  rcases Nat.eq_zero_or_pos m with rfl | hpos
  · exact .inl rfl
  · right
    have h1 : (m * 2 ^ e * 2 ^ sh).log2 < 24 + e + sh := by
      refine (Nat.log2_lt ?_).2 ?_
      · exact Nat.pos_iff_ne_zero.1 (Nat.mul_pos (Nat.mul_pos hpos (Nat.two_pow_pos _)) (Nat.two_pow_pos _))
      · rw [Nat.pow_add, Nat.pow_add]
        exact Nat.mul_lt_mul_of_pos_right (Nat.mul_lt_mul_of_pos_right hm (Nat.two_pow_pos _)) (Nat.two_pow_pos _)
    unfold ulpShift
    omega

/-! ### Kinds of patterns, and the clamp -/

/-- A finite pattern is no infinity and no NaN. -/
theorem not_inf_nan_of_finite {p : Word} (h : isFinite p = true) : isInf p = false ∧ isNaN p = false := by
  rw [isFinite_iff] at h
  simp only [isInf, isNaN, Bool.and_eq_false_iff, beq_eq_false_iff_ne]
  omega

/-- An infinity is no NaN and not finite. -/
theorem isInf_not {p : Word} (h : isInf p = true) : isNaN p = false ∧ isFinite p = false := by
  simp only [isInf, isNaN, isFinite, Bool.and_eq_true, beq_iff_eq] at *
  simp [h.1, h.2]

/-- A NaN is no infinity and not finite. -/
theorem isNaN_not {p : Word} (h : isNaN p = true) : isInf p = false ∧ isFinite p = false := by
  simp only [isInf, isNaN, isFinite, Bool.and_eq_true, beq_iff_eq, bne_iff_ne] at *
  simp [h.1, h.2]

/-- Every pattern is a NaN, an infinity or finite (40_datapath R100). -/
theorem kinds (p : Word) : isNaN p = true ∨ isInf p = true ∨ isFinite p = true := by
  simp only [isInf, isNaN, isFinite, Bool.and_eq_true, beq_iff_eq, bne_iff_ne]
  omega

/-- A pattern is determined by its fields. -/
theorem word_ext {p q : Word} (h1 : signBit p = signBit q) (h2 : expField p = expField q) (h3 : fracField p = fracField q) : p = q := by
  apply BitVec.eq_of_toNat_eq
  rw [toNat_fields p, toNat_fields q, h1, h2, h3]

/-- There is one infinity of each sign. -/
theorem inf_ext {p q : Word} (h1 : signBit p = signBit q) (hp : isInf p = true) (hq : isInf q = true) : p = q := by
  simp only [isInf, Bool.and_eq_true, beq_iff_eq] at hp hq
  exact word_ext h1 (by omega) (by omega)

/-- A value without its sign is the magnitude. -/
theorem natAbs_val (p : Word) : (val p).natAbs = mag p := by
  unfold val; split <;> omega

/-- `fabs` clears the sign and keeps the other fields (40_datapath R104). -/
theorem fabs_fields (x : Word) : signBit (fabs x) = false ∧ expField (fabs x) = expField x ∧ fracField (fabs x) = fracField x := by
  have h : (fabs x).toNat = x.toNat % 2 ^ 31 := by
    rw [fabs, BitVec.toNat_and]
    exact Nat.and_two_pow_sub_one_eq_mod x.toNat 31
  rw [signBit_eq, expField_eq, fracField_eq, expField_eq, fracField_eq, h]
  have := x.isLt
  refine ⟨?_, by omega, by omega⟩
  rw [decide_eq_false]; omega

/-- `fabs` keeps the kind and the magnitude of a pattern. -/
theorem fabs_kind (x : Word) : isNaN (fabs x) = isNaN x ∧ isInf (fabs x) = isInf x ∧ isFinite (fabs x) = isFinite x ∧ mag (fabs x) = mag x := by
  obtain ⟨-, h2, h3⟩ := fabs_fields x
  simp [isNaN, isInf, isFinite, mag, h2, h3]

/-- 1.0 in units of `2^-149`. -/
theorem mag_one : mag one = 2 ^ 149 := by decide +kernel

/-- What the converter clamps to (40_datapath R104, R105): finite, nonnegative, at most 1.0, and the magnitude itself below 1.0. -/
theorem clamp_spec (x : Word) : let c := clamp1 (fabs x)
    isFinite c = true ∧ signBit c = false ∧ mag c ≤ 2 ^ 149 ∧ (isNaN x = false → mag c = min (mag x) (2 ^ 149)) ∧ (mag c = 2 ^ 149 → c = one) := by
  obtain ⟨h1, h2, h3, h4⟩ := fabs_kind x
  have ho : isFinite one = true ∧ signBit one = false := by decide
  have hmi : isInf x = true → 2 ^ 149 ≤ mag x := by
    intro h
    simp only [isInf, Bool.and_eq_true, beq_iff_eq] at h
    rw [mag, h.1, h.2, if_neg (by omega)]
    decide +kernel
  unfold clamp1
  simp only [h1, h2, h4, mag_one]
  split
  · rename_i hh; refine ⟨ho.1, ho.2, by rw [mag_one], by simp [hh], by simp⟩
  · split
    · rename_i hh; refine ⟨ho.1, ho.2, by rw [mag_one], ?_, by simp⟩
      intro _; rw [mag_one]; have := hmi hh; omega
    · split
      · rename_i h5 h6 h7
        have : isFinite (fabs x) = true := by
          rcases kinds x with h | h | h
          · exact absurd h h5
          · exact absurd h h6
          · rw [h3, h]
        refine ⟨this, (fabs_fields x).1, by omega, by intro; omega, by omega⟩
      · refine ⟨ho.1, ho.2, by rw [mag_one], ?_, by simp⟩
        intro; rw [mag_one]; omega

/-- The integer conversion is monotonic in the magnitude (40_datapath R107). -/
theorem cvt_mono {p q : Word} (rnd : Bool) (h : mag p ≤ mag q) : cvtInt p rnd ≤ cvtInt q rnd := by
  unfold cvtInt
  split
  · exact roundHalfEven_mono 149 h
  · exact Nat.div_le_div_right h

/-- The byte as a number (40_datapath R108). -/
theorem conv8_toNat (x : Word) (cfg : Cfg) : (conv8 x cfg).toNat = min (cvtInt (scaled x cfg) cfg.rnd) 255 := by
  unfold conv8; rw [BitVec.toNat_ofNat]; omega

/-- A byte in the low bits of a word is the byte below 24 zero bits. -/
theorem setWidth_byte (b : Byte) : b.setWidth 32 = (0#24 ++ b : BitVec 32) := by
  rw [BitVec.setWidth_eq_append (by omega)]
  rfl

end Sys2Proof.Machine
end

