-- ==== Sys2Proof/Laws/State.lean ====
section
/-! SUPPORT. One lemma per field per named update of the state, each true by rfl, so that no later proof unfolds a
record update; and one per status bit per update of the status. -/

namespace Sys2Proof.Machine

open Sys2Proof

/-! ### latchError -/

@[simp] theorem latchError_capVec (e : ErrCode) (s : State) : (latchError e s).capVec = s.capVec := rfl
@[simp] theorem latchError_cfg (e : ErrCode) (s : State) : (latchError e s).cfg = s.cfg := rfl
@[simp] theorem latchError_status (e : ErrCode) (s : State) : (latchError e s).status = s.status.latch e := rfl
@[simp] theorem latchError_acc (e : ErrCode) (s : State) : (latchError e s).acc = s.acc := rfl
@[simp] theorem latchError_src (e : ErrCode) (s : State) : (latchError e s).src = s.src := rfl
@[simp] theorem latchError_dst (e : ErrCode) (s : State) : (latchError e s).dst = s.dst := rfl
@[simp] theorem latchError_len (e : ErrCode) (s : State) : (latchError e s).len = s.len := rfl
@[simp] theorem latchError_xin (e : ErrCode) (s : State) : (latchError e s).xin = s.xin := rfl
@[simp] theorem latchError_xout (e : ErrCode) (s : State) : (latchError e s).xout = s.xout := rfl
@[simp] theorem latchError_pfx (e : ErrCode) (s : State) : (latchError e s).pfx = s.pfx := rfl
@[simp] theorem latchError_pos (e : ErrCode) (s : State) : (latchError e s).pos = s.pos := rfl
@[simp] theorem latchError_faddr (e : ErrCode) (s : State) : (latchError e s).faddr = s.faddr := rfl
@[simp] theorem latchError_rkind (e : ErrCode) (s : State) : (latchError e s).rkind = s.rkind := rfl
@[simp] theorem latchError_mem (e : ErrCode) (s : State) : (latchError e s).mem = s.mem := rfl
@[simp] theorem latchError_busErr (e : ErrCode) (s : State) : (latchError e s).busErr = s.busErr := rfl
@[simp] theorem latchError_hostProg (e : ErrCode) (s : State) : (latchError e s).hostProg = s.hostProg := rfl
@[simp] theorem latchError_turns (e : ErrCode) (s : State) : (latchError e s).turns = s.turns := rfl
@[simp] theorem latchError_reads (e : ErrCode) (s : State) : (latchError e s).reads = s.reads := rfl
@[simp] theorem latchError_openRuns (e : ErrCode) (s : State) : (latchError e s).openRuns = s.openRuns := rfl

/-! ### writeStatus -/

@[simp] theorem writeStatus_capVec (d : Word) (s : State) : (writeStatus d s).capVec = s.capVec := rfl
@[simp] theorem writeStatus_cfg (d : Word) (s : State) : (writeStatus d s).cfg = s.cfg := rfl
@[simp] theorem writeStatus_status (d : Word) (s : State) : (writeStatus d s).status = s.status.writeOneToClear d := rfl
@[simp] theorem writeStatus_acc (d : Word) (s : State) : (writeStatus d s).acc = s.acc := rfl
@[simp] theorem writeStatus_src (d : Word) (s : State) : (writeStatus d s).src = s.src := rfl
@[simp] theorem writeStatus_dst (d : Word) (s : State) : (writeStatus d s).dst = s.dst := rfl
@[simp] theorem writeStatus_len (d : Word) (s : State) : (writeStatus d s).len = s.len := rfl
@[simp] theorem writeStatus_xin (d : Word) (s : State) : (writeStatus d s).xin = s.xin := rfl
@[simp] theorem writeStatus_xout (d : Word) (s : State) : (writeStatus d s).xout = s.xout := rfl
@[simp] theorem writeStatus_pfx (d : Word) (s : State) : (writeStatus d s).pfx = s.pfx := rfl
@[simp] theorem writeStatus_pos (d : Word) (s : State) : (writeStatus d s).pos = s.pos := rfl
@[simp] theorem writeStatus_faddr (d : Word) (s : State) : (writeStatus d s).faddr = s.faddr := rfl
@[simp] theorem writeStatus_rkind (d : Word) (s : State) : (writeStatus d s).rkind = s.rkind := rfl
@[simp] theorem writeStatus_mem (d : Word) (s : State) : (writeStatus d s).mem = s.mem := rfl
@[simp] theorem writeStatus_busErr (d : Word) (s : State) : (writeStatus d s).busErr = s.busErr := rfl
@[simp] theorem writeStatus_hostProg (d : Word) (s : State) : (writeStatus d s).hostProg = s.hostProg := rfl
@[simp] theorem writeStatus_turns (d : Word) (s : State) : (writeStatus d s).turns = s.turns := rfl
@[simp] theorem writeStatus_reads (d : Word) (s : State) : (writeStatus d s).reads = s.reads := rfl
@[simp] theorem writeStatus_openRuns (d : Word) (s : State) : (writeStatus d s).openRuns = s.openRuns := rfl

/-! ### ignoreWrite -/

@[simp] theorem ignoreWrite_capVec (s : State) : (ignoreWrite s).capVec = s.capVec := rfl
@[simp] theorem ignoreWrite_cfg (s : State) : (ignoreWrite s).cfg = s.cfg := rfl
@[simp] theorem ignoreWrite_status (s : State) : (ignoreWrite s).status = s.status.noteIgnoredWrite := rfl
@[simp] theorem ignoreWrite_acc (s : State) : (ignoreWrite s).acc = s.acc := rfl
@[simp] theorem ignoreWrite_src (s : State) : (ignoreWrite s).src = s.src := rfl
@[simp] theorem ignoreWrite_dst (s : State) : (ignoreWrite s).dst = s.dst := rfl
@[simp] theorem ignoreWrite_len (s : State) : (ignoreWrite s).len = s.len := rfl
@[simp] theorem ignoreWrite_xin (s : State) : (ignoreWrite s).xin = s.xin := rfl
@[simp] theorem ignoreWrite_xout (s : State) : (ignoreWrite s).xout = s.xout := rfl
@[simp] theorem ignoreWrite_pfx (s : State) : (ignoreWrite s).pfx = s.pfx := rfl
@[simp] theorem ignoreWrite_pos (s : State) : (ignoreWrite s).pos = s.pos := rfl
@[simp] theorem ignoreWrite_faddr (s : State) : (ignoreWrite s).faddr = s.faddr := rfl
@[simp] theorem ignoreWrite_rkind (s : State) : (ignoreWrite s).rkind = s.rkind := rfl
@[simp] theorem ignoreWrite_mem (s : State) : (ignoreWrite s).mem = s.mem := rfl
@[simp] theorem ignoreWrite_busErr (s : State) : (ignoreWrite s).busErr = s.busErr := rfl
@[simp] theorem ignoreWrite_hostProg (s : State) : (ignoreWrite s).hostProg = s.hostProg := rfl
@[simp] theorem ignoreWrite_turns (s : State) : (ignoreWrite s).turns = s.turns := rfl
@[simp] theorem ignoreWrite_reads (s : State) : (ignoreWrite s).reads = s.reads := rfl
@[simp] theorem ignoreWrite_openRuns (s : State) : (ignoreWrite s).openRuns = s.openRuns := rfl

/-! ### acceptStream -/

@[simp] theorem acceptStream_capVec (kind : RunKind) (s : State) : (acceptStream kind s).capVec = s.capVec := rfl
@[simp] theorem acceptStream_cfg (kind : RunKind) (s : State) : (acceptStream kind s).cfg = s.cfg := rfl
@[simp] theorem acceptStream_status (kind : RunKind) (s : State) : (acceptStream kind s).status = s.status.start := rfl
@[simp] theorem acceptStream_acc (kind : RunKind) (s : State) : (acceptStream kind s).acc = posZero := rfl
@[simp] theorem acceptStream_src (kind : RunKind) (s : State) : (acceptStream kind s).src = s.src := rfl
@[simp] theorem acceptStream_dst (kind : RunKind) (s : State) : (acceptStream kind s).dst = s.dst := rfl
@[simp] theorem acceptStream_len (kind : RunKind) (s : State) : (acceptStream kind s).len = s.len := rfl
@[simp] theorem acceptStream_xin (kind : RunKind) (s : State) : (acceptStream kind s).xin = s.xin := rfl
@[simp] theorem acceptStream_xout (kind : RunKind) (s : State) : (acceptStream kind s).xout = s.xout := rfl
@[simp] theorem acceptStream_pfx (kind : RunKind) (s : State) : (acceptStream kind s).pfx = s.pfx := rfl
@[simp] theorem acceptStream_pos (kind : RunKind) (s : State) : (acceptStream kind s).pos = 0x00000000#32 := rfl
@[simp] theorem acceptStream_faddr (kind : RunKind) (s : State) : (acceptStream kind s).faddr = s.faddr := rfl
@[simp] theorem acceptStream_rkind (kind : RunKind) (s : State) : (acceptStream kind s).rkind = kind := rfl
@[simp] theorem acceptStream_mem (kind : RunKind) (s : State) : (acceptStream kind s).mem = s.mem := rfl
@[simp] theorem acceptStream_busErr (kind : RunKind) (s : State) : (acceptStream kind s).busErr = s.busErr := rfl
@[simp] theorem acceptStream_hostProg (kind : RunKind) (s : State) : (acceptStream kind s).hostProg = s.hostProg := rfl
@[simp] theorem acceptStream_turns (kind : RunKind) (s : State) : (acceptStream kind s).turns = s.turns := rfl
@[simp] theorem acceptStream_reads (kind : RunKind) (s : State) : (acceptStream kind s).reads = s.reads := rfl
@[simp] theorem acceptStream_openRuns (kind : RunKind) (s : State) : (acceptStream kind s).openRuns = s.buffers :: s.openRuns := rfl

/-! ### finishRun -/

@[simp] theorem finishRun_capVec (s : State) : (finishRun s).capVec = s.capVec := rfl
@[simp] theorem finishRun_cfg (s : State) : (finishRun s).cfg = s.cfg := rfl
@[simp] theorem finishRun_status (s : State) : (finishRun s).status = s.status.finish := rfl
@[simp] theorem finishRun_acc (s : State) : (finishRun s).acc = s.acc := rfl
@[simp] theorem finishRun_src (s : State) : (finishRun s).src = s.src := rfl
@[simp] theorem finishRun_dst (s : State) : (finishRun s).dst = s.dst := rfl
@[simp] theorem finishRun_len (s : State) : (finishRun s).len = s.len := rfl
@[simp] theorem finishRun_xin (s : State) : (finishRun s).xin = s.xin := rfl
@[simp] theorem finishRun_xout (s : State) : (finishRun s).xout = s.xout := rfl
@[simp] theorem finishRun_pfx (s : State) : (finishRun s).pfx = s.pfx := rfl
@[simp] theorem finishRun_pos (s : State) : (finishRun s).pos = s.pos := rfl
@[simp] theorem finishRun_faddr (s : State) : (finishRun s).faddr = s.faddr := rfl
@[simp] theorem finishRun_rkind (s : State) : (finishRun s).rkind = s.rkind := rfl
@[simp] theorem finishRun_mem (s : State) : (finishRun s).mem = s.mem := rfl
@[simp] theorem finishRun_busErr (s : State) : (finishRun s).busErr = s.busErr := rfl
@[simp] theorem finishRun_hostProg (s : State) : (finishRun s).hostProg = s.hostProg := rfl
@[simp] theorem finishRun_turns (s : State) : (finishRun s).turns = s.turns := rfl
@[simp] theorem finishRun_reads (s : State) : (finishRun s).reads = s.reads := rfl
@[simp] theorem finishRun_openRuns (s : State) : (finishRun s).openRuns = s.openRuns := rfl

/-! ### endWithBusError -/

@[simp] theorem endWithBusError_capVec (addr : Nat) (dir : Dir) (s : State) : (endWithBusError addr dir s).capVec = s.capVec := rfl
@[simp] theorem endWithBusError_cfg (addr : Nat) (dir : Dir) (s : State) : (endWithBusError addr dir s).cfg = s.cfg := rfl
@[simp] theorem endWithBusError_acc (addr : Nat) (dir : Dir) (s : State) : (endWithBusError addr dir s).acc = s.acc := rfl
@[simp] theorem endWithBusError_src (addr : Nat) (dir : Dir) (s : State) : (endWithBusError addr dir s).src = s.src := rfl
@[simp] theorem endWithBusError_dst (addr : Nat) (dir : Dir) (s : State) : (endWithBusError addr dir s).dst = s.dst := rfl
@[simp] theorem endWithBusError_len (addr : Nat) (dir : Dir) (s : State) : (endWithBusError addr dir s).len = s.len := rfl
@[simp] theorem endWithBusError_xin (addr : Nat) (dir : Dir) (s : State) : (endWithBusError addr dir s).xin = s.xin := rfl
@[simp] theorem endWithBusError_xout (addr : Nat) (dir : Dir) (s : State) : (endWithBusError addr dir s).xout = s.xout := rfl
@[simp] theorem endWithBusError_pfx (addr : Nat) (dir : Dir) (s : State) : (endWithBusError addr dir s).pfx = s.pfx := rfl
@[simp] theorem endWithBusError_pos (addr : Nat) (dir : Dir) (s : State) : (endWithBusError addr dir s).pos = s.pos := rfl
@[simp] theorem endWithBusError_faddr (addr : Nat) (dir : Dir) (s : State) : (endWithBusError addr dir s).faddr = BitVec.ofNat 32 addr := rfl
@[simp] theorem endWithBusError_rkind (addr : Nat) (dir : Dir) (s : State) : (endWithBusError addr dir s).rkind = s.rkind := rfl
@[simp] theorem endWithBusError_mem (addr : Nat) (dir : Dir) (s : State) : (endWithBusError addr dir s).mem = s.mem := rfl
@[simp] theorem endWithBusError_busErr (addr : Nat) (dir : Dir) (s : State) : (endWithBusError addr dir s).busErr = s.busErr := rfl
@[simp] theorem endWithBusError_hostProg (addr : Nat) (dir : Dir) (s : State) : (endWithBusError addr dir s).hostProg = s.hostProg := rfl
@[simp] theorem endWithBusError_turns (addr : Nat) (dir : Dir) (s : State) : (endWithBusError addr dir s).turns = s.turns := rfl
@[simp] theorem endWithBusError_reads (addr : Nat) (dir : Dir) (s : State) : (endWithBusError addr dir s).reads = s.reads := rfl
@[simp] theorem endWithBusError_openRuns (addr : Nat) (dir : Dir) (s : State) : (endWithBusError addr dir s).openRuns = s.openRuns := rfl

/-! ### noteRegRead -/

@[simp] theorem noteRegRead_capVec (off : Byte) (s : State) : (noteRegRead off s).capVec = s.capVec := rfl
@[simp] theorem noteRegRead_cfg (off : Byte) (s : State) : (noteRegRead off s).cfg = s.cfg := rfl
@[simp] theorem noteRegRead_status (off : Byte) (s : State) : (noteRegRead off s).status = s.status := rfl
@[simp] theorem noteRegRead_acc (off : Byte) (s : State) : (noteRegRead off s).acc = s.acc := rfl
@[simp] theorem noteRegRead_src (off : Byte) (s : State) : (noteRegRead off s).src = s.src := rfl
@[simp] theorem noteRegRead_dst (off : Byte) (s : State) : (noteRegRead off s).dst = s.dst := rfl
@[simp] theorem noteRegRead_len (off : Byte) (s : State) : (noteRegRead off s).len = s.len := rfl
@[simp] theorem noteRegRead_xin (off : Byte) (s : State) : (noteRegRead off s).xin = s.xin := rfl
@[simp] theorem noteRegRead_xout (off : Byte) (s : State) : (noteRegRead off s).xout = s.xout := rfl
@[simp] theorem noteRegRead_pfx (off : Byte) (s : State) : (noteRegRead off s).pfx = s.pfx := rfl
@[simp] theorem noteRegRead_pos (off : Byte) (s : State) : (noteRegRead off s).pos = s.pos := rfl
@[simp] theorem noteRegRead_faddr (off : Byte) (s : State) : (noteRegRead off s).faddr = s.faddr := rfl
@[simp] theorem noteRegRead_rkind (off : Byte) (s : State) : (noteRegRead off s).rkind = s.rkind := rfl
@[simp] theorem noteRegRead_mem (off : Byte) (s : State) : (noteRegRead off s).mem = s.mem := rfl
@[simp] theorem noteRegRead_busErr (off : Byte) (s : State) : (noteRegRead off s).busErr = s.busErr := rfl
@[simp] theorem noteRegRead_hostProg (off : Byte) (s : State) : (noteRegRead off s).hostProg = s.hostProg := rfl
@[simp] theorem noteRegRead_turns (off : Byte) (s : State) : (noteRegRead off s).turns = s.turns := rfl
@[simp] theorem noteRegRead_reads (off : Byte) (s : State) : (noteRegRead off s).reads = .reg off (readOffset s off) :: s.reads := rfl
@[simp] theorem noteRegRead_openRuns (off : Byte) (s : State) : (noteRegRead off s).openRuns = openAfterRead off s := rfl

/-! ### resetBlock -/

@[simp] theorem resetBlock_capVec (s : State) : (resetBlock s).capVec = s.capVec := rfl
@[simp] theorem resetBlock_cfg (s : State) : (resetBlock s).cfg = State.reset.cfg := rfl
@[simp] theorem resetBlock_status (s : State) : (resetBlock s).status = State.reset.status := rfl
@[simp] theorem resetBlock_acc (s : State) : (resetBlock s).acc = State.reset.acc := rfl
@[simp] theorem resetBlock_src (s : State) : (resetBlock s).src = State.reset.src := rfl
@[simp] theorem resetBlock_dst (s : State) : (resetBlock s).dst = State.reset.dst := rfl
@[simp] theorem resetBlock_len (s : State) : (resetBlock s).len = State.reset.len := rfl
@[simp] theorem resetBlock_xin (s : State) : (resetBlock s).xin = State.reset.xin := rfl
@[simp] theorem resetBlock_xout (s : State) : (resetBlock s).xout = State.reset.xout := rfl
@[simp] theorem resetBlock_pfx (s : State) : (resetBlock s).pfx = State.reset.pfx := rfl
@[simp] theorem resetBlock_pos (s : State) : (resetBlock s).pos = State.reset.pos := rfl
@[simp] theorem resetBlock_faddr (s : State) : (resetBlock s).faddr = State.reset.faddr := rfl
@[simp] theorem resetBlock_rkind (s : State) : (resetBlock s).rkind = State.reset.rkind := rfl
@[simp] theorem resetBlock_mem (s : State) : (resetBlock s).mem = s.mem := rfl
@[simp] theorem resetBlock_busErr (s : State) : (resetBlock s).busErr = s.busErr := rfl
@[simp] theorem resetBlock_hostProg (s : State) : (resetBlock s).hostProg = s.hostProg := rfl
@[simp] theorem resetBlock_turns (s : State) : (resetBlock s).turns = s.turns := rfl
@[simp] theorem resetBlock_reads (s : State) : (resetBlock s).reads = s.reads := rfl
@[simp] theorem resetBlock_openRuns (s : State) : (resetBlock s).openRuns = s.openRuns := rfl

/-! ### queueCommand -/

@[simp] theorem queueCommand_capVec (w : Word) (s : State) : (queueCommand w s).capVec = s.capVec := rfl
@[simp] theorem queueCommand_cfg (w : Word) (s : State) : (queueCommand w s).cfg = s.cfg := rfl
@[simp] theorem queueCommand_status (w : Word) (s : State) : (queueCommand w s).status = s.status := rfl
@[simp] theorem queueCommand_acc (w : Word) (s : State) : (queueCommand w s).acc = s.acc := rfl
@[simp] theorem queueCommand_src (w : Word) (s : State) : (queueCommand w s).src = s.src := rfl
@[simp] theorem queueCommand_dst (w : Word) (s : State) : (queueCommand w s).dst = s.dst := rfl
@[simp] theorem queueCommand_len (w : Word) (s : State) : (queueCommand w s).len = s.len := rfl
@[simp] theorem queueCommand_xin (w : Word) (s : State) : (queueCommand w s).xin = s.xin := rfl
@[simp] theorem queueCommand_xout (w : Word) (s : State) : (queueCommand w s).xout = s.xout := rfl
@[simp] theorem queueCommand_pfx (w : Word) (s : State) : (queueCommand w s).pfx = s.pfx := rfl
@[simp] theorem queueCommand_pos (w : Word) (s : State) : (queueCommand w s).pos = s.pos := rfl
@[simp] theorem queueCommand_faddr (w : Word) (s : State) : (queueCommand w s).faddr = s.faddr := rfl
@[simp] theorem queueCommand_rkind (w : Word) (s : State) : (queueCommand w s).rkind = s.rkind := rfl
@[simp] theorem queueCommand_mem (w : Word) (s : State) : (queueCommand w s).mem = s.mem := rfl
@[simp] theorem queueCommand_busErr (w : Word) (s : State) : (queueCommand w s).busErr = s.busErr := rfl
@[simp] theorem queueCommand_hostProg (w : Word) (s : State) : (queueCommand w s).hostProg = .wr Reg.cmd.offset 4 w :: s.hostProg := rfl
@[simp] theorem queueCommand_turns (w : Word) (s : State) : (queueCommand w s).turns = .host :: s.turns := rfl
@[simp] theorem queueCommand_reads (w : Word) (s : State) : (queueCommand w s).reads = s.reads := rfl
@[simp] theorem queueCommand_openRuns (w : Word) (s : State) : (queueCommand w s).openRuns = s.openRuns := rfl

@[simp] theorem endWithBusError_status_read (addr : Nat) (s : State) :
    (endWithBusError addr .read s).status = (s.status.latch .busErrRead).finish := rfl
@[simp] theorem endWithBusError_status_write (addr : Nat) (s : State) :
    (endWithBusError addr .write s).status = (s.status.latch .busErrWrite).finish := rfl

/-! ### The status bits -/

@[simp] theorem Status.start_busy (t : Status) : (t.start).busy = true := rfl
@[simp] theorem Status.start_done (t : Status) : (t.start).done = false := rfl
@[simp] theorem Status.start_err (t : Status) : (t.start).err = t.err := rfl
@[simp] theorem Status.start_wign (t : Status) : (t.start).wign = t.wign := rfl
@[simp] theorem Status.start_ecode (t : Status) : (t.start).ecode = t.ecode := rfl

@[simp] theorem Status.finish_busy (t : Status) : (t.finish).busy = false := rfl
@[simp] theorem Status.finish_done (t : Status) : (t.finish).done = true := rfl
@[simp] theorem Status.finish_err (t : Status) : (t.finish).err = t.err := rfl
@[simp] theorem Status.finish_wign (t : Status) : (t.finish).wign = t.wign := rfl
@[simp] theorem Status.finish_ecode (t : Status) : (t.finish).ecode = t.ecode := rfl

@[simp] theorem Status.noteIgnoredWrite_busy (t : Status) : (t.noteIgnoredWrite).busy = t.busy := rfl
@[simp] theorem Status.noteIgnoredWrite_done (t : Status) : (t.noteIgnoredWrite).done = t.done := rfl
@[simp] theorem Status.noteIgnoredWrite_err (t : Status) : (t.noteIgnoredWrite).err = t.err := rfl
@[simp] theorem Status.noteIgnoredWrite_wign (t : Status) : (t.noteIgnoredWrite).wign = true := rfl
@[simp] theorem Status.noteIgnoredWrite_ecode (t : Status) : (t.noteIgnoredWrite).ecode = t.ecode := rfl

@[simp] theorem Status.writeOneToClear_busy (d : Word) (t : Status) : (t.writeOneToClear d).busy = t.busy := rfl
@[simp] theorem Status.writeOneToClear_done (d : Word) (t : Status) : (t.writeOneToClear d).done = (t.done && !d.getLsbD 1) := rfl
@[simp] theorem Status.writeOneToClear_err (d : Word) (t : Status) : (t.writeOneToClear d).err = (t.err && !d.getLsbD 2) := rfl
@[simp] theorem Status.writeOneToClear_wign (d : Word) (t : Status) : (t.writeOneToClear d).wign = (t.wign && !d.getLsbD 3) := rfl
@[simp] theorem Status.writeOneToClear_ecode (d : Word) (t : Status) : (t.writeOneToClear d).ecode = (if d.getLsbD 2 then .noError else t.ecode) := rfl

@[simp] theorem Status.latch_busy (e : ErrCode) (t : Status) : (t.latch e).busy = t.busy := by
  unfold Status.latch; split <;> rfl
@[simp] theorem Status.latch_done (e : ErrCode) (t : Status) : (t.latch e).done = t.done := by
  unfold Status.latch; split <;> rfl
@[simp] theorem Status.latch_wign (e : ErrCode) (t : Status) : (t.latch e).wign = t.wign := by
  unfold Status.latch; split <;> rfl
@[simp] theorem Status.latch_err (e : ErrCode) (t : Status) : (t.latch e).err = true := by
  unfold Status.latch; split <;> simp_all
theorem Status.latch_ecode (e : ErrCode) (t : Status) : (t.latch e).ecode = if t.err then t.ecode else e := by
  unfold Status.latch; split <;> rfl

/-- Once an error is latched, no later one is recorded (60_exceptions R204). -/
@[simp] theorem Status.latch_of_err (e : ErrCode) (t : Status) (h : t.err = true) : t.latch e = t := by
  unfold Status.latch; simp [h]

end Sys2Proof.Machine
end

