-- ==== Sys2Proof/Laws/Ops.lean ====
section
/-! SUPPORT. One lemma per shared operation that says everything it can do; later proofs cite these instead of unfolding
the operations. -/

namespace Sys2Proof.Machine

open Sys2Proof

/-! ### The guards of every command -/

theorem whenIdle_idle {s : State} (h : s.status.busy = false) (k : State → Result) : whenIdle s k = k s := by
  simp [whenIdle, h]

theorem whenIdle_busy {s : State} (h : s.status.busy = true) (k : State → Result) :
    whenIdle s k = .next (ignoreWrite s) := by
  simp [whenIdle, h]

theorem whenVector_present {s : State} (h : s.capVec = true) (k : State → Result) : whenVector s k = k s := by
  simp [whenVector, h]

theorem whenVector_absent {s : State} (h : s.capVec = false) (k : State → Result) :
    whenVector s k = .next (latchError .illegal s) := by
  simp [whenVector, h]

/-! ### Acceptance -/

/-- A stream command passes the checks exactly when its operands are aligned, in range and disjoint. -/
theorem acceptCheck_eq_none {kind : RunKind} {s : State} :
    acceptCheck kind s = none ↔
      s.src.toNat % kind.alignment = 0 ∧ s.src.toNat + 4 * s.len.toNat ≤ 2 ^ 32 ∧
      s.dst.toNat + s.len.toNat ≤ 2 ^ 32 ∧
      (s.len.toNat = 0 ∨ s.dst.toNat + s.len.toNat ≤ s.src.toNat ∨ s.src.toNat + 4 * s.len.toNat ≤ s.dst.toNat) := by
  unfold acceptCheck
  simp only
  split
  · simp_all
  · split
    · simp only [reduceCtorEq, false_iff]; omega
    · split
      · simp only [reduceCtorEq, false_iff]; omega
      · simp only [true_iff]; omega

/-- A failed check is never reported as no error. -/
theorem acceptCheck_ne_noError {kind : RunKind} {s : State} {e : ErrCode} (h : acceptCheck kind s = some e) :
    e ≠ .noError := by
  unfold acceptCheck at h
  simp only at h
  split at h
  · simp_all only [Option.some.injEq]; rw [← h]; decide
  · split at h
    · simp_all only [Option.some.injEq]; rw [← h]; decide
    · split at h
      · simp_all only [Option.some.injEq]; rw [← h]; decide
      · cases h

/-! ### The ranges of a stream command -/

theorem inInputRange_iff {s : State} {a : Nat} :
    inInputRange s a = true ↔ s.src.toNat ≤ a ∧ a < s.src.toNat + 4 * s.len.toNat := by
  rw [inInputRange, Buffers.inInput, Bool.and_eq_true, decide_eq_true_eq, decide_eq_true_eq]
  rfl

theorem inOutputRange_iff {s : State} {a : Nat} :
    inOutputRange s a = true ↔ s.dst.toNat ≤ a ∧ a < s.dst.toNat + s.len.toNat := by
  rw [inOutputRange, Buffers.inOutput, Bool.and_eq_true, decide_eq_true_eq, decide_eq_true_eq]
  rfl

/-- Where the buffers of SRC, DST and LEN may not be touched, an address that no race names is outside them. -/
theorem inInputRange_of_no_race {s : State} (h : s.buffers ∈ s.openRuns) {a : Nat} (hr : racesInput s a = false) :
    inInputRange s a = false := by
  rw [racesInput, List.any_eq_false] at hr
  exact Bool.eq_false_iff.2 (hr _ h)

theorem inOutputRange_of_no_race {s : State} (h : s.buffers ∈ s.openRuns) {a : Nat} (hr : racesOutput s a = false) :
    inOutputRange s a = false := by
  rw [racesOutput, List.any_eq_false] at hr
  exact Bool.eq_false_iff.2 (hr _ h)

/-! ### The memory port -/

theorem readAdmitted_four {addr : Nat} (h : addr % 4 = 0) (h' : addr + 4 ≤ 2 ^ 32) : readAdmitted addr 4 = true := by
  simp [readAdmitted, Config.memSize, h]; omega

theorem readAdmitted_sixteen {addr : Nat} (h : addr % 16 = 0) (h' : addr + 16 ≤ 2 ^ 32) :
    readAdmitted addr 16 = true := by
  simp [readAdmitted, Config.memSize, h]; omega

theorem writeAdmitted_iff {addr n : Nat} :
    writeAdmitted addr n = true ↔ (n = 1 ∨ n = 4) ∧ addr + n ≤ 2 ^ 32 := by
  simp only [writeAdmitted, Bool.and_eq_true, Bool.or_eq_true, beq_iff_eq, decide_eq_true_eq]
  rfl

theorem memRead_ok {s : State} {addr n : Nat} (h : readAdmitted addr n = true)
    (hb : busErrAt s.busErr addr n .read = false) : memRead s addr n = .bytes (s.mem.readBytes addr n) := by
  simp [memRead, h, hb]

theorem memRead_busError {s : State} {addr n : Nat} (h : readAdmitted addr n = true)
    (hb : busErrAt s.busErr addr n .read = true) : memRead s addr n = .busError := by
  simp [memRead, h, hb]

theorem memWrite_ok {s : State} {addr : Nat} {bs : List Byte} (h : writeAdmitted addr bs.length = true)
    (hb : busErrAt s.busErr addr bs.length .write = false) : memWrite s addr bs = .ok (s.mem.writeBytes addr bs) := by
  simp [memWrite, h, hb]

theorem memWrite_busError {s : State} {addr : Nat} {bs : List Byte} (h : writeAdmitted addr bs.length = true)
    (hb : busErrAt s.busErr addr bs.length .write = true) : memWrite s addr bs = .busError := by
  simp [memWrite, h, hb]

theorem memRead_eq_busError {s : State} {addr n : Nat} (h : memRead s addr n = .busError) :
    busErrAt s.busErr addr n .read = true := by
  unfold memRead at h
  split at h
  · cases h
  · split at h
    · assumption
    · cases h

theorem memWrite_eq_busError {s : State} {addr : Nat} {bs : List Byte} (h : memWrite s addr bs = .busError) :
    busErrAt s.busErr addr bs.length .write = true := by
  unfold memWrite at h
  split at h
  · cases h
  · split at h
    · assumption
    · cases h

/-- Everything a port write that succeeds can do. -/
theorem memWrite_eq_ok {s : State} {addr : Nat} {bs : List Byte} {m : Memory} (h : memWrite s addr bs = .ok m) :
    writeAdmitted addr bs.length = true ∧ m = s.mem.writeBytes addr bs := by
  unfold memWrite at h
  split at h
  · cases h
  · rename_i ha
    split at h
    · cases h
    · injection h with h
      exact ⟨by simpa using ha, h.symm⟩

/-! ### Bytes of a word -/

/-- Appending is multiplying and adding. -/
theorem toNat_append_add {n m : Nat} (x : BitVec n) (y : BitVec m) :
    (x ++ y).toNat = x.toNat * 2 ^ m + y.toNat := by
  rw [BitVec.toNat_append, ← Nat.shiftLeft_add_eq_or_of_lt y.isLt, Nat.shiftLeft_eq]

theorem pack4_toNat (b0 b1 b2 b3 : Byte) :
    (pack4 b0 b1 b2 b3).toNat = b3.toNat * 2 ^ 24 + b2.toNat * 2 ^ 16 + b1.toNat * 2 ^ 8 + b0.toNat := by
  have : (pack4 b0 b1 b2 b3).toNat = (b3 ++ b2 ++ b1 ++ b0 : BitVec (8 + 8 + 8 + 8)).toNat := rfl
  rw [this, toNat_append_add, toNat_append_add, toNat_append_add]
  omega

theorem wordOfBytes_toNat (b0 b1 b2 b3 : Byte) :
    (wordOfBytes b0 b1 b2 b3).toNat = b3.toNat * 2 ^ 24 + b2.toNat * 2 ^ 16 + b1.toNat * 2 ^ 8 + b0.toNat :=
  pack4_toNat b0 b1 b2 b3

theorem wordByte_toNat (v : Word) (j : Nat) : (wordByte v j).toNat = v.toNat / 2 ^ (8 * j) % 2 ^ 8 := by
  simp [wordByte, Nat.shiftRight_eq_div_pow]

/-- The packed bytes are stored lane by lane (40_datapath R112, 20_memory R61). -/
@[simp] theorem wordBytes_pack4 (b0 b1 b2 b3 : Byte) : wordBytes (pack4 b0 b1 b2 b3) = [b0, b1, b2, b3] := by
  have h0 := b0.isLt
  have h1 := b1.isLt
  have h2 := b2.isLt
  have h3 := b3.isLt
  simp only [wordBytes, List.cons.injEq, and_true]
  refine ⟨?_, ?_, ?_, ?_⟩ <;> (apply BitVec.eq_of_toNat_eq; rw [wordByte_toNat, pack4_toNat]; omega)

@[simp] theorem wordBytes_length (v : Word) : (wordBytes v).length = 4 := rfl

end Sys2Proof.Machine
end

