-- ==== Sys2Proof/Laws/PerInstr.lean ====
section
/-! SUPPORT. The statement made of every command as syntax, with one lemma per constructor: in every build that has the
command, its word decodes to it and carries its opcode in bits 7:0 and nothing above (30_encoding R81, R82). -/

namespace Sys2Proof.Laws.Encoding

open Sys2Proof

/-- A command's word decodes to the command in every build that has it, has no reserved bit set, and is named by its mnemonic. -/
def Statement (i : Instr) : Prop :=
  (∀ vec : Bool, i.wellFormed vec = true → decode vec (encode i) = .ok i) ∧
  rsvField (encode i) = 0 ∧ opcodeInstr (opField (encode i)) = some i ∧ assemble i.mnemonic = some (encode i)

theorem nop : Statement .nop := ⟨by decide, by decide, by decide, by decide⟩
theorem clr : Statement .clr := ⟨by decide, by decide, by decide, by decide⟩
theorem step1 : Statement .step1 := ⟨by decide, by decide, by decide, by decide⟩
theorem step4 : Statement .step4 := ⟨by decide, by decide, by decide, by decide⟩
theorem cvt1 : Statement .cvt1 := ⟨by decide, by decide, by decide, by decide⟩
theorem cvt4 : Statement .cvt4 := ⟨by decide, by decide, by decide, by decide⟩
theorem run1 : Statement .run1 := ⟨by decide, by decide, by decide, by decide⟩
theorem run4 : Statement .run4 := ⟨by decide, by decide, by decide, by decide⟩

end Sys2Proof.Laws.Encoding
end

