-- ==== Sys2Proof/Laws/Step.lean ====
section
/-! SUPPORT. What a step can do, said once: every command answers a next state; the effects of a command, of a host
operation and of a SEQ step as one inductive predicate each; and the step's inversion. -/

namespace Sys2Proof.Machine

open Sys2Proof

/-! ### Commands -/

/-- Every command starts with the busy guard. -/
theorem exec_busy (i : Instr) {s : State} (hb : s.status.busy = true) : exec i s = .next (ignoreWrite s) := by
  cases i <;>
    simp only [exec, execNop, execClr, execStep1, execStep4, execCvt1, execCvt4, execRun1, execRun4, whenIdle_busy hb]

theorem exec_nop {s : State} (hb : s.status.busy = false) : exec .nop s = .next s := by
  simp only [exec, execNop, whenIdle_idle hb]

theorem exec_clr {s : State} (hb : s.status.busy = false) : exec .clr s = .next { s with acc := posZero } := by
  simp only [exec, execClr, whenIdle_idle hb]

theorem exec_step1 {s : State} (hb : s.status.busy = false) :
    exec .step1 s = .next { s with
      acc := (step1 s.acc s.xin.l0 s.cfg).1, pfx := { s.pfx with l0 := (step1 s.acc s.xin.l0 s.cfg).1 },
      xout := (step1 s.acc s.xin.l0 s.cfg).2.setWidth 32 } := by
  simp only [exec, execStep1, whenIdle_idle hb]

theorem exec_cvt1 {s : State} (hb : s.status.busy = false) :
    exec .cvt1 s = .next { s with xout := (conv8 s.xin.l0 s.cfg).setWidth 32 } := by
  simp only [exec, execCvt1, whenIdle_idle hb]

theorem exec_run1 {s : State} (hb : s.status.busy = false) : exec .run1 s = .next (issueStream .run1 s) := by
  simp only [exec, execRun1, whenIdle_idle hb]

theorem exec_step4 {s : State} (hb : s.status.busy = false) (hv : s.capVec = true) :
    exec .step4 s = .next { s with
      acc := (step4 s.acc s.xin s.cfg).1, pfx := (step4 s.acc s.xin s.cfg).2.1,
      xout := (step4 s.acc s.xin s.cfg).2.2 } := by
  simp only [exec, execStep4, whenIdle_idle hb, whenVector_present hv]

theorem exec_cvt4 {s : State} (hb : s.status.busy = false) (hv : s.capVec = true) :
    exec .cvt4 s = .next { s with xout := convLanes s.xin s.cfg } := by
  simp only [exec, execCvt4, whenIdle_idle hb, whenVector_present hv]

theorem exec_run4 {s : State} (hb : s.status.busy = false) (hv : s.capVec = true) :
    exec .run4 s = .next (issueStream .run4 s) := by
  simp only [exec, execRun4, whenIdle_idle hb, whenVector_present hv]

/-- A 4-wide command in a build without the 4-wide datapath (30_encoding R83). -/
theorem exec_vectorAbsent {i : Instr} {s : State} (hb : s.status.busy = false) (hv : s.capVec = false)
    (hi : i = .step4 ∨ i = .cvt4 ∨ i = .run4) : exec i s = .next (latchError .illegal s) := by
  rcases hi with rfl | rfl | rfl <;>
    simp only [exec, execStep4, execCvt4, execRun4, whenIdle_idle hb, whenVector_absent hv]

/-- Everything a command can do (the guards included). -/
inductive CommandEffect (s : State) : State → Prop where
  /-- ignored while BUSY = 1 -/
  | ignored (hb : s.status.busy = true) : CommandEffect s (ignoreWrite s)
  /-- an error is latched and nothing else happens -/
  | rejected (e : ErrCode) (hb : s.status.busy = false) (he : e ≠ .noError) : CommandEffect s (latchError e s)
  /-- a stream command is accepted -/
  | accepted (kind : RunKind) (hb : s.status.busy = false) (hc : acceptCheck kind s = none)
      (hv : kind = .run4 → s.capVec = true) : CommandEffect s (acceptStream kind s)
  /-- a register step writes data registers only -/
  | registerStep (a : Word) (p : Lanes) (x : Word) (hb : s.status.busy = false) :
      CommandEffect s { s with acc := a, pfx := p, xout := x }

theorem issueStream_effect {kind : RunKind} {s : State} (hb : s.status.busy = false)
    (hv : kind = .run4 → s.capVec = true) : CommandEffect s (issueStream kind s) := by
  unfold issueStream
  split
  · exact .rejected _ hb (acceptCheck_ne_noError ‹_›)
  · exact .accepted kind hb ‹_› hv

/-- Every command, in every state, answers a next state, by one of the effects. -/
theorem exec_effect (i : Instr) (s : State) : ∃ t, exec i s = .next t ∧ CommandEffect s t := by
  cases hb : s.status.busy with
  | true => exact ⟨_, exec_busy i hb, .ignored hb⟩
  | false =>
    have vec (hi : i = .step4 ∨ i = .cvt4 ∨ i = .run4)
        (hk : s.capVec = true → ∃ t, exec i s = .next t ∧ CommandEffect s t) :
        ∃ t, exec i s = .next t ∧ CommandEffect s t := by
      cases hv : s.capVec with
      | true => exact hk hv
      | false => exact ⟨_, exec_vectorAbsent hb hv hi, .rejected _ hb (by decide)⟩
    cases i with
    | nop => exact ⟨_, exec_nop hb, .registerStep s.acc s.pfx s.xout hb⟩
    | clr => exact ⟨_, exec_clr hb, .registerStep _ s.pfx s.xout hb⟩
    | step1 => exact ⟨_, exec_step1 hb, .registerStep _ _ _ hb⟩
    | cvt1 => exact ⟨_, exec_cvt1 hb, .registerStep s.acc s.pfx _ hb⟩
    | run1 => exact ⟨_, exec_run1 hb, issueStream_effect hb fun h => by cases h⟩
    | step4 => exact vec (by simp) fun hv => ⟨_, exec_step4 hb hv, .registerStep _ _ _ hb⟩
    | cvt4 => exact vec (by simp) fun hv => ⟨_, exec_cvt4 hb hv, .registerStep s.acc s.pfx _ hb⟩
    | run4 => exact vec (by simp) fun hv => ⟨_, exec_run4 hb hv, issueStream_effect hb fun _ => hv⟩

theorem issueWord_effect (w : Word) (s : State) : ∃ t, issueWord w s = .next t ∧ CommandEffect s t := by
  unfold issueWord
  split
  · exact exec_effect _ s
  · cases hb : s.status.busy with
    | true => exact ⟨_, whenIdle_busy hb _, .ignored hb⟩
    | false => exact ⟨_, whenIdle_idle hb _, .rejected _ hb (by decide)⟩

/-! ### Host operations -/

/-- A register read keeps the windows of the races, or closes them with BUSY = 0. -/
theorem openAfterRead_cases (off : Byte) (s : State) :
    openAfterRead off s = s.openRuns ∨ s.status.busy = false ∧ openAfterRead off s = [] := by
  unfold openAfterRead
  split
  · exact .inr ⟨‹_ ∧ _›.2, rfl⟩
  · exact .inl rfl

/-- Everything a host operation that answers a next state can do. -/
inductive HostEffect (s : State) : State → Prop where
  /-- a command is issued, or ignored -/
  | command {t : State} (h : CommandEffect s t) : HostEffect s t
  /-- a write to STATUS -/
  | status (d : Word) : HostEffect s (writeStatus d s)
  /-- a write to another register while BUSY = 0 -/
  | register (r : Reg) (d : Word) (hr : r ≠ .status) (hb : s.status.busy = false) : HostEffect s (writeRegister r d s)
  /-- only the host's own program and notes change, and with BUSY = 0 the host may have seen the end of every run -/
  | hostOnly (prog : List HostOp) (notes : List HostRead) (runs : List Buffers)
      (hr : runs = s.openRuns ∨ s.status.busy = false ∧ runs = []) :
      HostEffect s { s with hostProg := prog, reads := notes, openRuns := runs }
  /-- a byte of memory outside the buffers the host may not touch is written -/
  | memory (addr : Word) (b : Byte) (hin : racesInput s addr.toNat = false) (hout : racesOutput s addr.toNat = false) :
      HostEffect s { s with mem := s.mem.write addr.toNat b }
  /-- reset -/
  | reset : HostEffect s (resetBlock s)

theorem hostWrite_effect (off : Byte) (d : Word) (s : State) : ∃ t, hostWrite off d s = .next t ∧ HostEffect s t := by
  unfold hostWrite
  split
  · exact ⟨s, rfl, .hostOnly s.hostProg s.reads s.openRuns (.inl rfl)⟩
  · obtain ⟨t, ht, he⟩ := issueWord_effect d s
    exact ⟨t, ht, .command he⟩
  · rename_i r _ hcmd
    refine ⟨_, rfl, ?_⟩
    cases hb : s.status.busy with
    | false => 
      rw [Bool.false_and, if_neg (by simp)]
      by_cases hr : r = .status
      · subst hr; exact .status d
      · exact .register r d hr hb
    | true =>
      cases hl : r.lockedWhileBusy with
      | true => exact .command (.ignored hb)
      | false =>
        rw [Bool.and_false, if_neg (by simp)]
        cases r <;> first | exact .status d | exact .hostOnly s.hostProg s.reads s.openRuns (.inl rfl) | cases hl

/-- A host operation answers one of the effects, a race, or the refusal of an access that is no transaction. -/
theorem hostOp_effect (op : HostOp) (s : State) :
    (∃ t, hostOp op s = .next t ∧ HostEffect s t) ∨
    (∃ addr, (racesInput s addr.toNat = true ∨ racesOutput s addr.toNat = true) ∧
      (hostOp op s = .fault (.raceOnInput addr) ∨ hostOp op s = .fault (.raceOnOutput addr))) ∨
    ∃ off size, hostOp op s = .refused (.registerAccessUndefined off size) := by
  cases op with
  | rd off size =>
    simp only [hostOp, registerAccess]
    split
    · exact .inl ⟨_, rfl, .hostOnly s.hostProg _ _ (openAfterRead_cases off s)⟩
    · exact .inr (.inr ⟨_, _, rfl⟩)
  | wr off size d =>
    simp only [hostOp, registerAccess]
    split
    · exact .inl (hostWrite_effect off d s)
    · exact .inr (.inr ⟨_, _, rfl⟩)
  | poll off lo width v =>
    simp only [hostOp, registerAccess]
    split
    · unfold hostPoll
      split
      · exact .inl ⟨_, rfl, .hostOnly s.hostProg _ _ (openAfterRead_cases off s)⟩
      · exact .inl ⟨_, rfl, .hostOnly _ _ _ (openAfterRead_cases off s)⟩
    · exact .inr (.inr ⟨_, _, rfl⟩)
  | memRd addr =>
    simp only [hostOp, hostMemRead]
    split
    · exact .inr (.inl ⟨addr, .inr ‹_›, .inr rfl⟩)
    · exact .inl ⟨_, rfl, .hostOnly s.hostProg _ s.openRuns (.inl rfl)⟩
  | memWr addr b =>
    simp only [hostOp, hostMemWrite]
    split
    · exact .inr (.inl ⟨addr, .inl ‹_›, .inl rfl⟩)
    · split
      · exact .inr (.inl ⟨addr, .inr ‹_›, .inr rfl⟩)
      · exact .inl ⟨_, rfl, .memory addr b (by simp_all) (by simp_all)⟩
  | reset => exact .inl ⟨_, rfl, .reset⟩

/-- HOST's step: its next operation, taken from its program, or nothing. -/
theorem hostStep_cases (s : State) :
    (s.hostProg = [] ∧ hostStep s = .next s) ∨
    ∃ op ops, s.hostProg = op :: ops ∧ hostStep s = hostOp op { s with hostProg := ops } := by
  unfold hostStep
  cases h : s.hostProg with
  | nil => exact .inl ⟨rfl, rfl⟩
  | cons op ops => exact .inr ⟨op, ops, rfl, rfl⟩

/-! ### The step -/

/-- A step is SEQ's or HOST's, at the state with its turn taken; with no turn scheduled it is SEQ's while BUSY = 1. -/
theorem step_cases (s : State) :
    (∃ ts, (s.turns = .seq :: ts ∨ s.turns = [] ∧ ts = [] ∧ s.status.busy = true) ∧
      step s = seqStep { s with turns := ts }) ∨
    ∃ ts, (s.turns = .host :: ts ∨ s.turns = [] ∧ ts = [] ∧ s.status.busy = false) ∧
      step s = hostStep { s with turns := ts } := by
  unfold step agentStep nextAgent
  cases ht : s.turns with
  | nil =>
    have hs : { s with turns := [] } = s := by rw [← ht]
    cases hb : s.status.busy with
    | true => exact .inl ⟨[], .inr ⟨rfl, rfl, rfl⟩, by rw [hs]; simp⟩
    | false => exact .inr ⟨[], .inr ⟨rfl, rfl, rfl⟩, by rw [hs]; simp⟩
  | cons a ts =>
    cases a with
    | seq => exact .inl ⟨ts, .inl rfl, rfl⟩
    | host => exact .inr ⟨ts, .inl rfl, rfl⟩

/-- With no turn scheduled SEQ moves while BUSY = 1. -/
theorem step_busy {s : State} (ht : s.turns = []) (hb : s.status.busy = true) : step s = seqStep s := by
  simp [step, agentStep, nextAgent, ht, hb]

end Sys2Proof.Machine
end

