-- ==== Sys2Proof/Laws/Stream.lean ====
section
/-! SUPPORT. The SEQ agent: what the port's bytes mean as elements, everything a unit can do, and everything a SEQ step
can do. -/

namespace Sys2Proof.Machine

open Sys2Proof

/-! ### Elements -/

/-- Four bytes read from an element's address are the element (20_memory R61). -/
theorem wordAt_readBytes_four (m : Memory) (src k : Nat) :
    wordAt (m.readBytes (src + 4 * k) 4) 0 = elementAt m src k := rfl

/-- Sixteen bytes read from the address of element `k` are elements `k` to `k + 3` (42 R179). -/
theorem lanesOfBytes_readBytes (m : Memory) (src k : Nat) :
    lanesOfBytes (m.readBytes (src + 4 * k) 16) =
      ⟨elementAt m src k, elementAt m src (k + 1), elementAt m src (k + 2), elementAt m src (k + 3)⟩ := by
  simp only [lanesOfBytes, wordAt, Memory.readBytes, elementAt, Lanes.mk.injEq]
  refine ⟨rfl, ?_, ?_, ?_⟩ <;> rfl

/-- An element depends on its own four bytes only. -/
theorem elementAt_congr {m m' : Memory} {src k : Nat}
    (h : ∀ a, src + 4 * k ≤ a → a < src + 4 * k + 4 → m.read a = m'.read a) :
    elementAt m src k = elementAt m' src k := by
  unfold elementAt
  rw [h _ (by omega) (by omega), h _ (by omega) (by omega), h _ (by omega) (by omega), h _ (by omega) (by omega)]

/-! ### What a SEQ step can do -/

/-- Everything a SEQ step that answers a next state can do. -/
inductive SeqEffect (s : State) : State → Prop where
  /-- BUSY = 0: no step -/
  | idle (hb : s.status.busy = false) : SeqEffect s s
  /-- the finish step -/
  | finish (hb : s.status.busy = true) (hp : s.pos = s.len) : SeqEffect s (finishRun s)
  /-- a request of the unit is answered `BusError` -/
  | busError (addr : Nat) (dir : Dir) (hb : s.status.busy = true) (hp : s.pos ≠ s.len) (hf : s.unitRequestFails addr dir) :
      SeqEffect s (endWithBusError addr dir s)
  /-- a unit from sample `k` writes its bytes, and moves ACC and POS -/
  | unit (k : Nat) (bs : List Byte) (a : Word) (hb : s.status.busy = true) (hp : s.pos ≠ s.len)
      (hk : bs.length = 1 ∧ k = s.pos.toNat ∧ (s.rkind = .run1 ∨ s.len.toNat - s.pos.toNat < 4) ∨
        bs.length = 4 ∧ k = 4 * (s.pos.toNat / 4) ∧ s.rkind = .run4 ∧ s.len.toNat - s.pos.toNat ≥ 4)
      (ha : writeAdmitted (outputAddr s k) bs.length = true) :
      SeqEffect s { s with
        mem := s.mem.writeBytes (outputAddr s k) bs, acc := a, pos := BitVec.ofNat 32 (k + bs.length) }

theorem scalarUnit_cases (k : Nat) (s : State) :
    (∃ f, scalarUnit k s = .fault f) ∨
    (∃ addr dir, (dir = .read ∧ addr = elementAddr s k ∧ busErrAt s.busErr addr 4 .read = true ∨
        dir = .write ∧ addr = outputAddr s k ∧ busErrAt s.busErr addr 1 .write = true) ∧
      scalarUnit k s = .next (endWithBusError addr dir s)) ∨
    ∃ b a, writeAdmitted (outputAddr s k) 1 = true ∧
      scalarUnit k s = .next { s with
        mem := s.mem.writeBytes (outputAddr s k) [b], acc := a, pos := BitVec.ofNat 32 (k + 1) } := by
  unfold scalarUnit
  split
  · exact .inl ⟨_, rfl⟩
  · exact .inr (.inl ⟨_, _, .inl ⟨rfl, rfl, memRead_eq_busError ‹_›⟩, rfl⟩)
  · simp only
    split
    · exact .inl ⟨_, rfl⟩
    · exact .inr (.inl ⟨_, _, .inr ⟨rfl, rfl, memWrite_eq_busError ‹_›⟩, rfl⟩)
    · rename_i hw
      obtain ⟨ha, rfl⟩ := memWrite_eq_ok hw
      exact .inr (.inr ⟨_, _, ha, rfl⟩)

theorem blockUnit_cases (b : Nat) (s : State) :
    (∃ f, blockUnit b s = .fault f) ∨
    (∃ addr dir, (dir = .read ∧ addr = blockAddr s b ∧ busErrAt s.busErr addr 16 .read = true ∨
        dir = .write ∧ addr = outputAddr s (4 * b) ∧ busErrAt s.busErr addr 4 .write = true) ∧
      blockUnit b s = .next (endWithBusError addr dir s)) ∨
    ∃ bs a, bs.length = 4 ∧ writeAdmitted (outputAddr s (4 * b)) 4 = true ∧
      blockUnit b s = .next { s with
        mem := s.mem.writeBytes (outputAddr s (4 * b)) bs, acc := a, pos := BitVec.ofNat 32 (4 * b + 4) } := by
  unfold blockUnit
  split
  · exact .inl ⟨_, rfl⟩
  · exact .inr (.inl ⟨_, _, .inl ⟨rfl, rfl, memRead_eq_busError ‹_›⟩, rfl⟩)
  · simp only
    split
    · exact .inl ⟨_, rfl⟩
    · exact .inr (.inl ⟨_, _, .inr ⟨rfl, rfl, memWrite_eq_busError ‹_›⟩, rfl⟩)
    · rename_i hw
      obtain ⟨ha, rfl⟩ := memWrite_eq_ok hw
      exact .inr (.inr ⟨_, _, wordBytes_length _, ha, rfl⟩)

/-- A SEQ step answers one of the effects, or faults on a request the port does not admit. -/
theorem seqStep_effect {s t : State} (h : seqStep s = .next t) : SeqEffect s t := by
  unfold seqStep at h
  cases hb : s.status.busy with
  | false =>
    rw [hb] at h
    injection h with h
    exact h ▸ .idle hb
  | true =>
    rw [hb, Bool.not_true, if_neg (by simp)] at h
    split at h
    · rename_i hp
      injection h with h
      exact h ▸ .finish hb hp
    · rename_i hp
      split at h
      · rename_i hu
        rcases blockUnit_cases (s.pos.toNat / 4) s with ⟨f, hf⟩ | ⟨addr, dir, hq, hf⟩ | ⟨bs, a, hl, ha, hf⟩ <;> rw [hf] at h
        · cases h
        · injection h with h
          exact h ▸ .busError addr dir hb hp (by rw [State.unitRequestFails, if_pos hu]; exact hq)
        · injection h with h
          have he := SeqEffect.unit _ bs a hb hp (.inr ⟨hl, rfl, hu.1, hu.2⟩) (hl ▸ ha)
          rw [hl] at he
          exact h ▸ he
      · rename_i hu
        rcases scalarUnit_cases s.pos.toNat s with ⟨f, hf⟩ | ⟨addr, dir, hq, hf⟩ | ⟨b, a, ha, hf⟩ <;> rw [hf] at h
        · cases h
        · injection h with h
          exact h ▸ .busError addr dir hb hp (by rw [State.unitRequestFails, if_neg hu]; exact hq)
        · injection h with h
          rw [← h]
          refine .unit _ [b] a hb hp (.inl ⟨rfl, rfl, ?_⟩) ha
          cases hk : s.rkind with
          | run1 => exact .inl rfl
          | run4 => exact .inr (by rw [hk] at hu; simp only [true_and] at hu; omega)

/-- SEQ's step while BUSY = 1 and samples remain, for a scalar unit (42 R177). -/
theorem seqStep_scalar {s : State} (hb : s.status.busy = true) (hp : s.pos ≠ s.len)
    (hk : s.rkind = .run1 ∨ s.len.toNat - s.pos.toNat < 4) : seqStep s = scalarUnit s.pos.toNat s := by
  unfold seqStep
  rw [hb, Bool.not_true, if_neg (by simp), if_neg hp, if_neg]
  rintro ⟨h4, hge⟩
  rcases hk with h1 | hlt
  · rw [h4] at h1; cases h1
  · omega

/-- SEQ's step while BUSY = 1 and at least four samples of a RUN4 remain (42 R177). -/
theorem seqStep_block {s : State} (hb : s.status.busy = true) (hp : s.pos ≠ s.len)
    (hk : s.rkind = .run4) (hge : s.len.toNat - s.pos.toNat ≥ 4) : seqStep s = blockUnit (s.pos.toNat / 4) s := by
  unfold seqStep
  rw [hb, Bool.not_true, if_neg (by simp), if_neg hp, if_pos ⟨hk, hge⟩]

theorem seqStep_finish {s : State} (hb : s.status.busy = true) (hp : s.pos = s.len) :
    seqStep s = .next (finishRun s) := by
  unfold seqStep
  rw [hb, Bool.not_true, if_neg (by simp), if_pos hp]

end Sys2Proof.Machine
end

