-- ==== Sys2Proof/Tests/Slice0.lean ====
section
/-! SUPPORT. Tests: ill-formed terms refused, words written out from 30_encoding R82, single steps with the values of
95_test_vectors.md, and for every statement with hypotheses a state and operands that meet them. -/

namespace Sys2Proof.Tests

open Sys2Proof Sys2Proof.Machine

/-! ### Helpers -/

/-- The next state, if there is one. -/
def nextOf : Result → Option State
  | .next t => some t
  | _       => none

theorem next_of_nextOf {r : Result} {t : State} (h : nextOf r = some t) : r = .next t := by
  cases r with
  | next u => rw [nextOf, Option.some.injEq] at h; rw [h]
  | fault f => cases h
  | refused x => cases h

/-- The reset state with one accumulator, four lanes and a configuration. -/
def regs (acc : Word) (xin : Lanes) (scale rnd : Bool) : State :=
  { State.reset with acc := acc, xin := xin, cfg := ⟨scale, rnd⟩ }

/-- Lane 0 alone. -/
def lane0 (x : Word) : Lanes := ⟨x, posZero, posZero, posZero⟩

/-- A host program on the reset state, to be run with no turn scheduled. -/
def prog (ops : List HostOp) : State := { State.reset with hostProg := ops }

/-- The reset state in a build without the 4-wide datapath. -/
def noVec : State := { State.reset with capVec := false }

/-- RUN-11's input, 1.0, -0.25, 0, 0.125, at 0x1000, then two elements that read as +0.0. -/
def memA : Memory :=
  [⟨0x1002, 0x80#8⟩, ⟨0x1003, 0x3F#8⟩, ⟨0x1006, 0x80#8⟩, ⟨0x1007, 0xBE#8⟩, ⟨0x100F, 0x3E#8⟩]

/-- An idle state ready for a stream command over that input. -/
def ready (src dst len : Word) : State := { State.reset with src := src, dst := dst, len := len, mem := memA }

/-- A run of a kind over that input at `pos`, six samples from 0x1000 to 0x2000. -/
def run (kind : RunKind) (pos acc : Word) : State :=
  { ready 0x1000#32 0x2000#32 6#32 with
    rkind := kind, pos := pos, acc := acc,
    status := { busy := true, done := false, err := false, wign := false, ecode := .noError },
    openRuns := [⟨0x1000#32, 0x2000#32, 6#32⟩] }

/-- The same run just ended, the host not having read STATUS. -/
def ended : State := finishRun (run .run1 6#32 one)

/-- The invariant of a running state, from facts that evaluate. -/
theorem inv_of_run {s : State} (hm : s.mem.wf = true) (he : s.status.ecode = .noError) (hr : s.status.err = false)
    (hd : s.status.done = false) (hw : s.buffers ∈ s.openRuns) (hv : s.capVec = true) (h16 : s.src.toNat % 16 = 0)
    (hi : s.src.toNat + 4 * s.len.toNat ≤ s.dst.toNat) (ho : s.dst.toNat + s.len.toNat ≤ 2 ^ 32)
    (hp : s.pos.toNat ≤ s.len.toNat)
    (h4 : s.rkind = .run4 → s.pos.toNat % 4 = 0 ∨ 4 * (s.len.toNat / 4) ≤ s.pos.toNat) : s.Inv := by
  refine ⟨hm, by simp [he, hr], fun _ => hd, fun _ => ⟨fun _ => hv, by omega, fun _ => h16, by omega, ho, ?_, hp, h4⟩,
    fun _ => hw⟩
  intro a ha
  rw [Bool.eq_false_iff, Ne, inOutputRange_iff]
  rw [inInputRange_iff] at ha
  omega

theorem run_inv {kind : RunKind} {pos acc : Word} (hp : pos.toNat ≤ 6) (h4 : kind = .run4 → pos.toNat % 4 = 0 ∨ 4 ≤ pos.toNat) :
    (run kind pos acc).Inv :=
  inv_of_run (s := run kind pos acc) (show memA.wf = true by decide) rfl rfl rfl (List.mem_singleton.2 rfl) rfl
    (show (0x1000#32).toNat % 16 = 0 by decide) (show (0x1000#32).toNat + 4 * (6#32).toNat ≤ (0x2000#32).toNat by decide)
    (show (0x2000#32).toNat + (6#32).toNat ≤ 2 ^ 32 by decide) hp
    (fun h => (h4 h).imp_right fun h' => Nat.le_trans (show 4 * ((6#32).toNat / 4) ≤ 4 by decide) h')

theorem idle_inv {s : State} (hm : s.mem.wf = true) (he : s.status.ecode = .noError) (hr : s.status.err = false)
    (hb : s.status.busy = false) : s.Inv :=
  ⟨hm, by simp [he, hr], by simp [hb], by simp [hb], by simp [hb]⟩

/-! ### Well-formedness: ill-formed terms are refused -/

theorem test_step4_ill_formed_without_vector : Instr.wellFormed false .step4 = false := by decide
theorem test_cvt4_ill_formed_without_vector : Instr.wellFormed false .cvt4 = false := by decide
theorem test_run4_ill_formed_without_vector : Instr.wellFormed false .run4 = false := by decide
theorem test_access_of_one_byte_refused : registerAccessDefined 0x10#8 1 = false := by decide
theorem test_access_of_eight_bytes_refused : registerAccessDefined 0x10#8 8 = false := by decide
theorem test_access_misaligned_refused : registerAccessDefined 0x12#8 4 = false := by decide

/-! ### Decoding and encoding: words from the table of 30_encoding R82, OP in bits 7:0 and RSV in bits 31:8 -/

theorem test_decode_NOP : decode false 0b00000000000000000000000000000000#32 = .ok .nop := by decide
theorem test_decode_CLR : decode false 0b00000000000000000000000000000001#32 = .ok .clr := by decide
theorem test_decode_STEP1 : decode false 0b00000000000000000000000000000010#32 = .ok .step1 := by decide
theorem test_decode_STEP4 : decode true 0b00000000000000000000000000000011#32 = .ok .step4 := by decide
theorem test_decode_CVT1 : decode false 0b00000000000000000000000000000100#32 = .ok .cvt1 := by decide
theorem test_decode_CVT4 : decode true 0b00000000000000000000000000000101#32 = .ok .cvt4 := by decide
/-- DEC-7: RUN1 exists in every build. -/
theorem test_decode_RUN1 : decode false 0b00000000000000000000000000000110#32 = .ok .run1 := by decide
theorem test_decode_RUN4 : decode true 0b00000000000000000000000000000111#32 = .ok .run4 := by decide
/-- DEC-1 and DEC-2 -/
theorem test_reserved_opcodes :
    decode true 0x00000008#32 = .error .reservedOpcode ∧ decode true 0x000000FF#32 = .error .reservedOpcode := by decide
/-- DEC-3 to DEC-5 -/
theorem test_reserved_bits :
    decode true 0x00000100#32 = .error .reservedBitsSet ∧ decode true 0x80000006#32 = .error .reservedBitsSet ∧
    decode true 0xFFFFFFFF#32 = .error .reservedBitsSet := by decide
/-- DEC-6 -/
theorem test_vector_absent : decode false 0x00000007#32 = .error .vectorAbsent := by decide
theorem test_assemble : assemble "RUN4" = some 0x00000007#32 ∧ assemble "run4" = none := by decide
theorem test_table_word : decodeTableWord 32 6 = some .run1 ∧ decodeTableWord 8 4 = some .cvt1 ∧
    decodeTableWord 32 0x100 = none := by decide

/-! ### Registers (95_test_vectors L2.5) -/

/-- ST-2: STATUS 0x6E, write 0x4, STATUS 0x0A. -/
theorem test_status_write :
    let s := { State.reset with status := ⟨false, true, true, true, .busErrWrite⟩ }
    readOffset s 0x08#8 = 0x6E#32 ∧ readOffset (writeStatus 0x4#32 s) 0x08#8 = 0x0A#32 := by decide
/-- BUSY-1 and BUSY-2 -/
theorem test_busy_writes :
    (nextOf (hostOp (.wr 0x10#8 4 0x3F800000#32) (run .run1 1#32 one))).map (fun t => (t.acc, t.status.wign)) =
      some (one, true) ∧
    (nextOf (hostOp (.wr 0x44#8 4 5#32) (run .run1 1#32 one))).map (fun t => (t.pos, t.status.wign)) =
      some (1#32, false) := by decide
/-- MAP-1 -/
theorem test_unmapped_reads_zero : readOffset (run .run1 1#32 one) 0x80#8 = 0#32 := by decide
theorem test_misaligned_read_refused :
    hostOp (.rd 0x11#8 4) State.reset = .refused (.registerAccessUndefined 0x11#8 4) := rfl

/-- 70_reset R236, R237: a host read of an output byte after the run has ended races until STATUS has been read, and a
STATUS read during the run does not end the window. -/
theorem test_output_readable_only_after_status_read :
    step { ended with hostProg := [.memRd 0x2000#32] } = .fault (.raceOnOutput 0x2000#32) ∧
    (nextOf (stepMany 2 { ended with hostProg := [progRd .status, .memRd 0x2000#32] })).map
      (fun t => t.reads.head?) = some (some (.mem 0x2000#32 0x00#8)) ∧
    (nextOf (hostOp (progRd .status) (run .run1 0#32 0#32))).map (·.openRuns) =
      some (run .run1 0#32 0#32).openRuns := ⟨rfl, by decide, by decide⟩

/-! ### Instructions, one step each (95_test_vectors L2.4 to L2.6) -/

/-- NOP-1, and DEC-3's word beside it. -/
theorem test_NOP : (nextOf (step ((regs one (lane0 one) true true).withFetchWord 32 0))) =
    some (regs one (lane0 one) true true) := by decide
/-- CLR-1 -/
theorem test_CLR : (nextOf (exec .clr (regs 0x7FC00000#32 (lane0 one) false false))) =
    some (regs 0x00000000#32 (lane0 one) false false) := by decide
/-- CLR-2 -/
theorem test_CLR_negative_zero : (nextOf (exec .clr (regs 0x80000000#32 (lane0 one) false false))).map (·.acc) =
    some 0x00000000#32 := by decide
/-- STEP1-9: PFX1 unchanged. -/
theorem test_STEP1 :
    (nextOf (exec .step1 (regs 0x3F000000#32 (lane0 0xBDCCCCCD#32) true true))).map
      (fun t => (t.acc, t.pfx, t.xout)) =
    some (0x3ECCCCCD#32, ⟨0x3ECCCCCD#32, 0#32, 0#32, 0#32⟩, 0x00000066#32) := by decide +kernel
/-- STEP1-7: a signalling NaN operand gives the canonical NaN. -/
theorem test_STEP1_nan :
    (nextOf (exec .step1 (regs 0x3F800000#32 (lane0 0x7F800001#32) false false))).map (fun t => (t.acc, t.xout)) =
    some (0x7FC00000#32, 0x000000FF#32) := by decide +kernel
/-- STEP4-3, the DIV-1 input. -/
theorem test_STEP4 :
    (nextOf (exec .step4 (regs 0#32 ⟨0x4B800000#32, 0x3F800000#32, 0xCB800000#32, 0x3F000000#32⟩ false true))).map
      (fun t => (t.acc, t.pfx, t.xout)) =
    some (0#32, ⟨0x4B800000#32, 0x4B800000#32, 0x3F800000#32, 0#32⟩, 0x00FFFFFF#32) := by decide +kernel
/-- STEP4-5: STATUS 0x14. -/
theorem test_STEP4_absent :
    (nextOf (step (noVec.withFetchWord 32 3))).map (fun t => (readOffset t 0x08#8, t.pfx, t.xout)) =
    some (0x14#32, noVec.pfx, 0#32) := by decide
/-- CVT1-4: the product is rounded before the integer is taken (CVT-lift). -/
theorem test_CVT1 :
    (nextOf (exec .cvt1 (regs 0#32 (lane0 0x3B804020#32) true false))).map (fun t => (t.acc, t.xout)) =
    some (0#32, 0x00000001#32) := by decide +kernel
/-- CVT1-3: 256 saturates. -/
theorem test_CVT1_saturates :
    (nextOf (exec .cvt1 (regs 0#32 (lane0 0x3F800000#32) true true))).map (·.xout) = some 0x000000FF#32 := by
  decide +kernel
/-- CVT4-1 -/
theorem test_CVT4 :
    (nextOf (exec .cvt4 (regs 0#32 ⟨0x3E800000#32, 0x3F800000#32, 0xBF000000#32, 0x7FC00000#32⟩ false false))).map
      (·.xout) = some 0xFF7FFF3F#32 := by decide +kernel
/-- CVT4-2: the CVT-tie operand under S = 255.5. -/
theorem test_CVT4_tie :
    (nextOf (exec .cvt4 (regs 0#32 ⟨0x3EFDFDFE#32, 0x3EFDFDFE#32, 0x3EFDFDFE#32, 0x3EFDFDFE#32⟩ true true))).map
      (·.xout) = some 0x7F7F7F7F#32 := by decide +kernel
/-- RUN-15: acceptance resets ACC. -/
theorem test_RUN1 :
    (nextOf (exec .run1 { ready 0x1000#32 0x2000#32 4#32 with acc := 0x40000000#32 })).map
      (fun t => (t.acc, t.pos, t.rkind, readOffset t 0x08#8)) = some (0#32, 0#32, .run1, 1#32) := by decide
/-- ACC-5: ALIGN comes before RANGE. -/
theorem test_RUN4_align_first :
    (nextOf (exec .run4 (ready 0xFFFFFFF4#32 0x2000#32 8#32))).map (fun t => readOffset t 0x08#8) = some 0x24#32 := by
  decide
/-- P2's kind of run: one block unit over RUN-11's input. -/
theorem test_RUN4_block_unit :
    (nextOf (seqStep (run .run4 0#32 0#32))).map
      (fun t => (t.acc, t.pos, t.mem.readBytes 0x2000 5)) =
    some (0x3F600000#32, 4#32, [0xFF#8, 0xBF#8, 0xBF#8, 0xDF#8, 0x00#8]) := by decide +kernel
/-- BE-1's last unit: the write at 0x2002 fails. -/
theorem test_RUN1_bus_error :
    (nextOf (seqStep { run .run1 2#32 0x3F400000#32 with busErr := [⟨0x2002, 0x2002, 1, .write⟩] })).map
      (fun t => (t.acc, t.pos, t.faddr, readOffset t 0x08#8)) =
    some (0x3F400000#32, 2#32, 0x2002#32, 0x66#32) := by decide +kernel

/-! ### Every statement's hypotheses are met -/

theorem witness_DecodeOfEncodeIsTheCommand :
    Instr.wellFormed true .step4 = true ∧ Instr.wellFormed false .run1 = true ∧ encode .nop = encode .nop := by decide

/-- The words at the edges of the three conditions, in each build, idle and busy. -/
theorem witness_IllegalWordsRaiseIllegalWhenIdle :
    (∃ e, decode State.reset.capVec 0x00000100#32 = .error e) ∧ (∃ e, decode State.reset.capVec 0x00000008#32 = .error e) ∧
    (∃ e, decode noVec.capVec 0x00000003#32 = .error e) ∧ noVec.status.busy = false ∧ State.reset.status.busy = false ∧
    (∃ e, decode (run .run1 0#32 0#32).capVec 0x00000008#32 = .error e) ∧ (run .run1 0#32 0#32).status.busy = true ∧
    (∃ i, decode State.reset.capVec 0x00000007#32 = .ok i) :=
  ⟨⟨_, rfl⟩, ⟨_, rfl⟩, ⟨_, rfl⟩, rfl, rfl, ⟨_, rfl⟩, rfl, ⟨_, rfl⟩⟩

theorem witness_StepRunsTheIssuedCommand :
    let s := prog [.wr 0x0C#8 4 6#32]
    decode s.capVec 6#32 = .ok .run1 ∧ s.hostProg = .wr 0x0C#8 4 6#32 :: [] ∧ s.turns = [] ∧ s.status.busy = false ∧
    ({ run .run1 0#32 0#32 with hostProg := [.wr 0x0C#8 4 6#32], turns := [.host] }).turns = .host :: [] :=
  ⟨rfl, rfl, rfl, rfl, rfl⟩

theorem witness_PlacedWordRunsNext : decode State.reset.capVec 6#32 = .ok .run1 := rfl

/-- An operation that is no CMD write, at a scheduled host turn during a run and with no turn scheduled; and no operation. -/
theorem witness_StepRunsTheHostsNextOperation :
    (let s := { run .run1 0#32 0#32 with turns := [.host], hostProg := [progRd .acc] };
      s.hostProg = progRd .acc :: [] ∧ s.turns = .host :: []) ∧
    (let s := prog [.memWr 5#32 1#8]; s.hostProg = .memWr 5#32 1#8 :: [] ∧ s.turns = [] ∧ s.status.busy = false) ∧
    (let s := { run .run1 0#32 0#32 with turns := [.host] }; s.hostProg = [] ∧ s.turns = .host :: []) ∧
    (State.reset.hostProg = [] ∧ State.reset.turns = [] ∧ State.reset.status.busy = false) := by decide

theorem witness_SeqStepsExactlyWhileBusy :
    State.reset.status.busy = false ∧ (run .run1 6#32 0#32).status.busy = true ∧ (run .run1 6#32 0#32).Inv ∧
    seqStep (run .run1 6#32 0#32) = .next (finishRun (run .run1 6#32 0#32)) ∧ (run .run1 6#32 0#32).turns = [] ∧
    ({ run .run1 6#32 0#32 with turns := [.seq] }).turns = .seq :: [] :=
  ⟨rfl, rfl, run_inv (by decide) (by decide), rfl, rfl, rfl⟩

theorem witness_CommandsAreIgnoredWhileBusy : (run .run4 0#32 0#32).status.busy = true := rfl

theorem witness_NopChangesNothing :
    State.reset.status.busy = false ∧ opField 0x00000100#32 = 0 ∧ rsvField 0x00000100#32 ≠ 0 := by decide

theorem witness_ClrZeroesTheAccumulator : (regs 0x7FC00000#32 (lane0 one) true true).status.busy = false := rfl

theorem witness_Step1AccumulatesAndConverts :
    (regs one (lane0 one) true true).status.busy = false ∧ isNaN 0x7F800001#32 = true ∧
    isFinite 0x7F7FFFFF#32 = true ∧ 0xFF7FFFFF#32 = 0x7F7FFFFF#32 ^^^ 0x80000000#32 := by decide

theorem witness_Step4ScansFourLanes :
    State.reset.status.busy = false ∧ State.reset.capVec = true ∧ noVec.status.busy = false ∧ noVec.capVec = false ∧
    isNaN ((lane0 qNaN).lane 0) = true ∧ isNaN (Lanes.lane ⟨one, one, one, qNaN⟩ 3) = true ∧ isNaN qNaN = true ∧
    (lane0 negZero).l0 = negZero := by decide

theorem witness_Cvt1ConvertsOneLane :
    State.reset.status.busy = false ∧ isNaN 0xFFFFFFFF#32 = true ∧ isInf 0xFF800000#32 = true ∧ mag one ≥ mag one := by decide

theorem witness_Cvt4ConvertsFourLanes :
    State.reset.status.busy = false ∧ State.reset.capVec = true ∧ noVec.status.busy = false ∧ noVec.capVec = false := by
  decide

theorem witness_RegisterStepsFrame :
    Instr.step4 ≠ .run1 ∧ Instr.step4 ≠ .run4 ∧ noVec.status.busy = false ∧ State.reset.status.busy = false := by decide

theorem witness_RepeatedStep1SumsLeftToRight :
    (regs posZero (lane0 0x3DCCCCCD#32) false false).status.busy = false ∧
    (regs posZero (lane0 0x3DCCCCCD#32) false false).acc = posZero := ⟨rfl, rfl⟩

theorem witness_FirstErrorIsSticky : (0x00000004#32).getLsbD 2 = true := by decide

/-- ACC-2, ACC-6, ACC-8, ACC-12 and ACC-16: the boundaries of the checks. -/
theorem witness_StreamCommandsAreAccepted :
    (let s := ready 0x1004#32 0x2000#32 1#32; s.status.busy = false ∧ s.src.toNat % 4 = 0) ∧
    (let s := ready 0xFFFFFFF0#32 0x2000#32 4#32; s.status.busy = false ∧ s.src.toNat % 16 = 0 ∧ s.capVec = true ∧
      s.src.toNat + 4 * s.len.toNat = 2 ^ 32 ∧ s.dst.toNat + s.len.toNat ≤ s.src.toNat) ∧
    (let s := ready 0x1000#32 0xFFFFFFFF#32 1#32; s.dst.toNat + s.len.toNat = 2 ^ 32 ∧
      s.src.toNat + 4 * s.len.toNat ≤ s.dst.toNat) ∧
    (let s := ready 0x1000#32 0x1010#32 4#32; s.src.toNat + 4 * s.len.toNat = s.dst.toNat) ∧
    (let s := ready 0x1000#32 0x1000#32 0#32; s.len.toNat = 0 ∧ s.src.toNat + 4 * s.len.toNat ≤ 2 ^ 32) := by
  decide

/-- DEC-6, ACC-1, ACC-4, ACC-7, ACC-13, ACC-14: each check's failure, the earlier ones passed. -/
theorem witness_StreamCommandsAreRejectedInOrder :
    (noVec.status.busy = false ∧ noVec.capVec = false) ∧
    (let s := ready 0x1002#32 0x2000#32 1#32; s.status.busy = false ∧ s.src.toNat % 4 ≠ 0) ∧
    (let s := ready 0x1008#32 0x2000#32 1#32; s.capVec = true ∧ s.src.toNat % 16 ≠ 0) ∧
    (let s := ready 0xFFFFFFF0#32 0x2000#32 8#32; s.src.toNat % 16 = 0 ∧ ¬(s.src.toNat + 4 * s.len.toNat ≤ 2 ^ 32)) ∧
    (let s := ready 0x1000#32 0x100F#32 4#32; s.src.toNat % 16 = 0 ∧ s.src.toNat + 4 * s.len.toNat ≤ 2 ^ 32 ∧
      s.dst.toNat + s.len.toNat ≤ 2 ^ 32 ∧ s.len.toNat > 0 ∧ s.src.toNat < s.dst.toNat + s.len.toNat ∧
      s.dst.toNat < s.src.toNat + 4 * s.len.toNat) ∧
    (let s := ready 0x1000#32 0x0FFD#32 4#32; s.src.toNat < s.dst.toNat + s.len.toNat) := by decide

theorem witness_FinishStepEndsTheRun :
    (run .run1 6#32 one).status.busy = true ∧ (run .run1 6#32 one).pos = (run .run1 6#32 one).len := by decide

/-- RUN1's first sample, and the last sample of RUN4's tail. -/
theorem witness_ScalarUnitProcessesOneSample :
    (let s := run .run1 0#32 0#32; s.Inv ∧ s.status.busy = true ∧ s.pos ≠ s.len ∧ s.rkind = .run1 ∧
      busErrAt s.busErr (s.src.toNat + 4 * s.pos.toNat) 4 .read = false ∧
      busErrAt s.busErr (s.dst.toNat + s.pos.toNat) 1 .write = false) ∧
    (let s := run .run4 5#32 one; s.Inv ∧ s.status.busy = true ∧ s.pos ≠ s.len ∧ s.len.toNat - s.pos.toNat < 4 ∧
      busErrAt s.busErr (s.src.toNat + 4 * s.pos.toNat) 4 .read = false ∧
      busErrAt s.busErr (s.dst.toNat + s.pos.toNat) 1 .write = false) :=
  ⟨⟨run_inv (by decide) (by decide), by decide⟩, ⟨run_inv (by decide) (by decide), by decide⟩⟩

theorem witness_BlockUnitProcessesFourSamples :
    let s := run .run4 0#32 0#32
    s.Inv ∧ s.status.busy = true ∧ s.rkind = .run4 ∧ s.pos.toNat + 4 ≤ s.len.toNat ∧
    busErrAt s.busErr (s.src.toNat + 4 * s.pos.toNat) 16 .read = false ∧
    busErrAt s.busErr (s.dst.toNat + s.pos.toNat) 4 .write = false :=
  ⟨run_inv (by decide) (by decide), by decide⟩

/-- BE-2, BE-1, BE-3 and BE-4's requests. -/
theorem witness_BusErrorEndsTheRun :
    (let s := { run .run1 2#32 one with busErr := [⟨0x1008, 0x1008, 4, .read⟩] }; s.Inv ∧ s.status.busy = true ∧
      s.pos ≠ s.len ∧ busErrAt s.busErr (s.src.toNat + 4 * s.pos.toNat) 4 .read = true) ∧
    (let s := { run .run1 2#32 one with busErr := [⟨0x2002, 0x2002, 1, .write⟩] }; s.Inv ∧
      busErrAt s.busErr (s.src.toNat + 4 * s.pos.toNat) 4 .read = false ∧
      busErrAt s.busErr (s.dst.toNat + s.pos.toNat) 1 .write = true) ∧
    (let s := { run .run4 0#32 0#32 with busErr := [⟨0x1000, 0x1000, 16, .read⟩] }; s.Inv ∧ s.rkind = .run4 ∧
      s.pos.toNat + 4 ≤ s.len.toNat ∧ busErrAt s.busErr (s.src.toNat + 4 * s.pos.toNat) 16 .read = true) ∧
    (let s := { run .run4 0#32 0#32 with busErr := [⟨0x2000, 0x2000, 4, .write⟩] }; s.Inv ∧
      busErrAt s.busErr (s.src.toNat + 4 * s.pos.toNat) 16 .read = false ∧
      busErrAt s.busErr (s.dst.toNat + s.pos.toNat) 4 .write = true) := by
  refine ⟨⟨?_, by decide⟩, ⟨?_, by decide⟩, ⟨?_, by decide⟩, ⟨?_, by decide⟩⟩ <;>
    exact inv_of_run (by decide) rfl rfl rfl (by decide) rfl (by decide) (by decide) (by decide) (by decide) (by decide)

theorem witness_SeqStepFrame :
    (run .run4 0#32 0#32).Inv ∧ (run .run4 0#32 0#32).status.busy = true ∧
    ∃ t, seqStep (run .run4 0#32 0#32) = .next t ∧ t.status.busy = true := by
  refine ⟨run_inv (by decide) (by decide), rfl, ?_⟩
  have h : (nextOf (seqStep (run .run4 0#32 0#32))).any (·.status.busy) = true := by decide +kernel
  obtain ⟨t, ht, hb⟩ := (Option.any_eq_true _ _).1 h
  exact ⟨t, next_of_nextOf ht, hb⟩

theorem noBusErrors_nil {s : State} (h : s.busErr = []) : s.noBusErrors := by
  intro addr size
  rw [h]
  exact ⟨fun _ => rfl, fun _ => rfl⟩

theorem witness_StreamContract :
    (∀ s, s = ready 0x1000#32 0x2000#32 6#32 ∨ s = ready 0xFFFFFFF0#32 0x2000#32 4#32 →
      s.Inv ∧ s.status.busy = false ∧ s.noBusErrors ∧ s.turns = [] ∧ s.capVec = true ∧ acceptCheck .run4 s = none ∧
        acceptCheck .run1 s = none) := by
  rintro s (rfl | rfl) <;>
    exact ⟨idle_inv (by decide) rfl rfl rfl, rfl, noBusErrors_nil rfl, rfl, rfl, by decide, by decide⟩

theorem witness_ProgressIsKeptByEveryStep :
    (run .run1 0#32 0#32).Inv ∧ (run .run1 0#32 0#32).Progress ∧
    ∃ t, step (run .run1 0#32 0#32) = .next t ∧ t.status.busy = true := by
  refine ⟨run_inv (by decide) (by decide), ⟨rfl, fun k hk => absurd hk (Nat.not_lt_zero k)⟩, ?_⟩
  have h : (nextOf (step (run .run1 0#32 0#32))).any (·.status.busy) = true := by decide +kernel
  obtain ⟨t, ht, hb⟩ := (Option.any_eq_true _ _).1 h
  exact ⟨t, next_of_nextOf ht, hb⟩

theorem witness_RunsAlwaysEnd :
    (run .run4 0#32 0#32).Inv ∧ (run .run4 0#32 0#32).status.busy = true ∧ (run .run4 0#32 0#32).turns = [] :=
  ⟨run_inv (by decide) (by decide), rfl, rfl⟩

/-- Two states that differ in XIN, in the accumulator left behind, and in where the output goes. -/
theorem witness_RunsReadNothingLeftBehind :
    let s := ready 0x1000#32 0x2000#32 1#32
    let s' := { s with xin := lane0 qNaN, acc := qNaN, dst := 0x3000#32 }
    s.Inv ∧ s'.Inv ∧ s.status.busy = false ∧ s'.status.busy = false ∧ s.noBusErrors ∧ s'.noBusErrors ∧ s.turns = [] ∧
    s'.turns = [] ∧ acceptCheck .run1 s = none ∧ acceptCheck .run1 s' = none ∧ s.cfg = s'.cfg ∧ s.len = s'.len ∧
    (∀ k < s.len.toNat, s.input k = s'.input k) ∧
    ∃ t t' u u', exec RunKind.run1.instr s = .next t ∧ exec RunKind.run1.instr s' = .next t' ∧
      stepMany (seqSteps .run1 s.len.toNat) t = .next u ∧ stepMany (seqSteps .run1 s.len.toNat) t' = .next u' := by
  refine ⟨idle_inv (by decide) rfl rfl rfl, idle_inv (by decide) rfl rfl rfl, rfl, rfl, noBusErrors_nil rfl,
    noBusErrors_nil rfl, rfl, rfl, by decide, by decide, rfl, rfl, fun k _ => rfl, ?_⟩
  have h (d : Word) (x : Lanes) (a : Word) (hs : (nextOf (stepMany 2 (acceptStream .run1
      { ready 0x1000#32 d 1#32 with xin := x, acc := a }))).isSome = true) :
      ∃ u, stepMany 2 (acceptStream .run1 { ready 0x1000#32 d 1#32 with xin := x, acc := a }) = .next u := by
    obtain ⟨u, hu⟩ := Option.isSome_iff_exists.1 hs
    exact ⟨u, next_of_nextOf hu⟩
  obtain ⟨u, hu⟩ := h 0x2000#32 State.reset.xin State.reset.acc (by decide +kernel)
  obtain ⟨u', hu'⟩ := h 0x3000#32 (lane0 qNaN) qNaN (by decide +kernel)
  exact ⟨_, _, u, u', rfl, rfl, hu, hu'⟩

theorem witness_Round32IsNearestTiesToEven :
    ((2 ^ 25 - 1) * 2 ^ (252 + 0) ≠ 0 ∧ isInf (round32 false ((2 ^ 25 - 1) * 2 ^ (252 + 0)) 0) = true) ∧
    (3 ≠ 0 ∧ isFinite (round32 true 3 1) = true ∧ isFinite one = true) := by decide +kernel

/-- Each clause of the addition: NaN, opposite infinities, one infinity, an exact zero of each sign, any other sum. -/
theorem witness_FaddIsBinary32Addition :
    isNaN 0x7F800001#32 = true ∧ (isInf posInf = true ∧ isInf negInf = true ∧ signBit posInf ≠ signBit negInf) ∧
    (isInf negInf = true ∧ isFinite one = true) ∧ (isFinite negZero = true ∧ val negZero + val negZero = 0) ∧
    (isFinite one = true ∧ val one + val 0xBF800000#32 = 0) ∧ val one + val one ≠ 0 := by decide +kernel

/-- A sum is exact if the model's addition is. -/
theorem exactSum_of {a b : Word} (h : isFinite a = true ∧ isFinite b = true ∧ isFinite (fadd a b) = true ∧
    val (fadd a b) = val a + val b) : exactSum a b := ⟨h.1, h.2.1, _, h.2.2.1, h.2.2.2⟩

theorem witness_ExactSumsAreExact :
    exactSum one 0x3F000000#32 ∧ expField 0x00000001#32 = 0 ∧ expField 0x807FFFFF#32 = 0 :=
  ⟨exactSum_of (by decide +kernel), by decide, by decide⟩

theorem witness_FullCoverageIsByte255 :
    (isFinite one = true ∧ mag one ≥ mag one) ∧ isInf negInf = true ∧ isNaN qNaN = true := by decide

theorem witness_ZeroInputGivesZeroOutput : ∀ k : Nat, isZero ((fun k => if k % 2 = 0 then posZero else negZero) k) := by
  intro k
  simp only [isZero]
  split
  · exact .inl rfl
  · exact .inr rfl

theorem witness_ConverterIsMonotonic :
    isNaN 0xBF000000#32 = false ∧ isNaN posInf = false ∧ mag 0xBF000000#32 ≤ mag posInf := by decide +kernel

/-- SCAN-1's lanes from +0.0: no addition rounds on either path. -/
theorem witness_ScalarAndVectorAgreeWhenExact :
    let v : Lanes := ⟨0x3E800000#32, 0x3F400000#32, 0x00000000#32, 0xBF000000#32⟩
    step1ChainExact posZero v ∧ step4Exact posZero v := by
  refine ⟨⟨?_, ?_, ?_, ?_⟩, ⟨?_, ?_, ?_, ?_⟩, ⟨?_, ?_, ?_, ?_⟩, ?_, ?_, ?_, ?_⟩ <;>
    exact exactSum_of (by decide +kernel)

/-- The last mapped offset and the first that is not. -/
theorem witness_HostReadsReturnTheRegisters :
    (0x48#8).toNat % 4 = 0 ∧ (0x4C#8).toNat % 4 = 0 ∧ (0x4C#8).toNat ≥ 0x4C ∧ (0xFC#8).toNat ≥ 0x4C := by decide

theorem witness_HostWritesWhileIdle :
    State.reset.status.busy = false ∧ decode State.reset.capVec 7#32 = .ok .run4 ∧ (0x30#8).toNat % 4 = 0 ∧
    (0x30#8).toNat ≥ 0x30 ∧ (0x00#8).toNat = 0x00 := by decide

theorem witness_HostWritesWhileBusyAreIgnored :
    (run .run1 0#32 0#32).status.busy = true ∧ (0x30#8).toNat % 4 = 0 ∧ (0x30#8).toNat ≥ 0x30 := by decide

theorem witness_OnlyAlignedWordAccessesAreTransactions :
    (2 ≠ 4) ∧ (0x01#8).toNat % 4 ≠ 0 ∧ (0xFC#8).toNat % 4 = 0 := by decide

theorem witness_PollRepeatsUntilTheFieldMatches :
    (0x08#8).toNat % 4 = 0 ∧ (prog [progWait]).hostProg = .poll 0x08#8 0 1 0 :: [] := by decide

/-- After the run has ended and before STATUS is read: the first and last byte of each range, and the bytes just outside. -/
theorem witness_RacesStopAndOtherAccessesPerform :
    ended.status.busy = false ∧ racesInput ended 0x0FFF = false ∧ racesInput ended 0x1000 = true ∧
    racesInput ended 0x1017 = true ∧ racesInput ended 0x1018 = false ∧ racesOutput ended 0x1FFF = false ∧
    racesOutput ended 0x2000 = true ∧ racesOutput ended 0x2005 = true ∧ racesOutput ended 0x2006 = false ∧
    racesInput ended 0x2000 = false ∧ (racesInput (run .run1 0#32 0#32) 0x1000 = true) := by decide

/-- An acceptance opens a window; a read and a poll of STATUS after the run close it. -/
theorem witness_RaceWindowRunsFromAcceptanceToTheStatusRead :
    (let s := { ready 0x1000#32 0x2000#32 6#32 with hostProg := [progCmd .run4] };
      s.status.busy = false ∧ ∃ t, step s = .next t ∧ t.status.busy = true) ∧
    (let s := { ended with hostProg := [progRd .status] };
      ∃ t, step s = .next t ∧ t.openRuns ≠ s.openRuns ∧ t.status.busy = false) ∧
    (let s := { ended with hostProg := [progWait] };
      ∃ t, step s = .next t ∧ t.openRuns ≠ s.openRuns ∧ t.status.busy = false) :=
  ⟨⟨rfl, _, rfl, rfl⟩, ⟨_, rfl, by decide, rfl⟩, ⟨_, rfl, by decide, rfl⟩⟩

theorem witness_CapAndPlatformAreConstant : step (prog [.reset]) = .next State.reset := rfl

theorem witness_OperandsAreConstantDuringARun :
    let s := { run .run1 1#32 one with turns := [.host], hostProg := [progWr .cfg 3#32] }
    s.status.busy = true ∧ ∃ t, step s = .next t ∧ t.status.busy = true := ⟨rfl, _, rfl, rfl⟩

theorem witness_FaddrChangesOnlyByBusErrorOrReset :
    (let s := { State.reset with faddr := 0x2002#32, hostProg := [.reset] };
      step s = .next State.reset ∧ State.reset.faddr ≠ s.faddr) ∧
    (let s := { run .run1 2#32 one with busErr := [⟨0x1008, 0x1008, 4, .read⟩] };
      ∃ t, step s = .next t ∧ t.faddr ≠ s.faddr) :=
  ⟨⟨rfl, by decide⟩, ⟨_, rfl, by decide⟩⟩

theorem witness_ErrorsClearOnlyByHostOrReset :
    let s := { prog [progClrStat] with status := ⟨false, false, true, false, .align⟩ }
    s.status.err = true ∧ ∃ t, step s = .next t ∧ t.status.err = false := ⟨rfl, _, rfl, rfl⟩

/-- A unit's step and a host's write each change a byte. -/
theorem witness_MemoryChangesOnlyInTheOutputOrByTheHost :
    ((run .run4 0#32 0#32).Inv ∧ ∃ t, step (run .run4 0#32 0#32) = .next t ∧
      t.mem.read 0x2000 ≠ (run .run4 0#32 0#32).mem.read 0x2000) ∧
    ((prog [.memWr 5#32 1#8]).Inv ∧ ∃ t, step (prog [.memWr 5#32 1#8]) = .next t ∧
      t.mem.read 5 ≠ (prog [.memWr 5#32 1#8]).mem.read 5) := by
  refine ⟨⟨run_inv (by decide) (by decide), ?_⟩, idle_inv (by decide) rfl rfl rfl, _, rfl, by decide⟩
  have h : (nextOf (step (run .run4 0#32 0#32))).any
      (fun t => decide (t.mem.read 0x2000 ≠ (run .run4 0#32 0#32).mem.read 0x2000)) = true := by decide +kernel
  obtain ⟨t, ht, hb⟩ := (Option.any_eq_true _ _).1 h
  exact ⟨t, next_of_nextOf ht, of_decide_eq_true hb⟩

theorem witness_BusyChangesOnlyByAcceptanceAndEnd :
    (let s := { ready 0x1000#32 0x2000#32 6#32 with hostProg := [progCmd .run4] };
      s.status.busy = false ∧ ∃ t, step s = .next t ∧ t.status.busy = true) ∧
    (let s := run .run1 6#32 one; s.status.busy = true ∧ ∃ t, step s = .next t ∧ t.status.busy = false) :=
  ⟨⟨rfl, _, rfl, rfl⟩, rfl, _, rfl, rfl⟩

theorem witness_InvariantIsKeptByEveryStep :
    (run .run1 6#32 one).Inv ∧ step (run .run1 6#32 one) = .next (finishRun (run .run1 6#32 one)) :=
  ⟨run_inv (by decide) (by decide), rfl⟩

/-- A state that meets the invariant at which the step stops, and one at which it goes on. -/
theorem witness_EveryStepIsSafe :
    let s := { run .run1 0#32 0#32 with turns := [.host], hostProg := [.memWr 0x1000#32 0#8] }
    s.Inv ∧ step s = .fault (.raceOnInput 0x1000#32) ∧ (run .run1 6#32 one).Inv :=
  ⟨inv_of_run (by decide) rfl rfl rfl (by decide) rfl (by decide) (by decide) (by decide) (by decide) (by decide), rfl,
    run_inv (by decide) (by decide)⟩

end Sys2Proof.Tests
end

section
/-! PROOFS. The whole machine: one inversion of a step that goes on, what a run keeps of its operands, and the invariant. -/

namespace Sys2Proof.Machine

open Sys2Proof

/-! ### A step that goes on -/

/-- The state with the schedule and the host's program replaced: where an agent moves, its turn (and for HOST its
operation) taken (log 1, log 13). -/
def State.withSchedule (s : State) (ts : List Agent) (ops : List HostOp) : State :=
  { s with turns := ts, hostProg := ops }

/-- A host operation that answers a next state has one of the host's effects. -/
theorem hostOp_next_effect {op : HostOp} {s t : State} (h : hostOp op s = .next t) : HostEffect s t := by
  rcases hostOp_effect op s with ⟨t', ht, he⟩ | ⟨_, _, hf | hf⟩ | ⟨_, _, hf⟩
  · rw [ht] at h
    injection h with h
    exact h ▸ he
  · rw [hf] at h; cases h
  · rw [hf] at h; cases h
  · rw [hf] at h; cases h

/-- A step that goes on is a SEQ step, a turn of a host with nothing to do, or the host's next operation. -/
theorem step_next_cases {s t : State} (h : step s = .next t) :
    (∃ ts ops, SeqEffect (s.withSchedule ts ops) t) ∨
    (∃ ts, t = s.withSchedule ts s.hostProg) ∨
    ∃ op ts ops, s.hostProg = op :: ops ∧ hostOp op (s.withSchedule ts ops) = .next t := by
  rcases step_cases s with ⟨ts, -, hs⟩ | ⟨ts, -, hs⟩
  · exact .inl ⟨ts, s.hostProg, seqStep_effect (hs.symm.trans h)⟩
  · rw [hs] at h
    rcases hostStep_cases { s with turns := ts } with ⟨-, hn⟩ | ⟨op, ops, hp, ho⟩
    · rw [hn] at h
      injection h with h
      exact .inr (.inl ⟨ts, h.symm⟩)
    · exact .inr (.inr ⟨op, ts, ops, hp, ho.symm.trans h⟩)

/-- A step that goes on has one of SEQ's effects or one of the host's. -/
theorem step_next_effect {s t : State} (h : step s = .next t) :
    ∃ ts ops, SeqEffect (s.withSchedule ts ops) t ∨ HostEffect (s.withSchedule ts ops) t := by
  rcases step_next_cases h with ⟨ts, ops, he⟩ | ⟨ts, rfl⟩ | ⟨op, ts, ops, -, ho⟩
  · exact ⟨ts, ops, .inl he⟩
  · exact ⟨ts, s.hostProg, .inr (.hostOnly s.hostProg s.reads s.openRuns (.inl rfl))⟩
  · exact ⟨ts, ops, .inr (hostOp_next_effect ho)⟩

/-! ### Writes to registers -/

theorem writeRegister_capVec (r : Reg) (d : Word) (s : State) : (writeRegister r d s).capVec = s.capVec := by
  cases r <;> rfl

theorem writeRegister_busErr (r : Reg) (d : Word) (s : State) : (writeRegister r d s).busErr = s.busErr := by
  cases r <;> rfl

theorem writeRegister_mem (r : Reg) (d : Word) (s : State) : (writeRegister r d s).mem = s.mem := by
  cases r <;> rfl

theorem writeRegister_faddr (r : Reg) (d : Word) (s : State) : (writeRegister r d s).faddr = s.faddr := by
  cases r <;> rfl

theorem writeRegister_busy (r : Reg) (d : Word) (s : State) :
    (writeRegister r d s).status.busy = s.status.busy := by
  cases r <;> rfl

/-- Only a write to STATUS itself writes STATUS. -/
theorem writeRegister_status {r : Reg} (hr : r ≠ .status) (d : Word) (s : State) :
    (writeRegister r d s).status = s.status := by
  cases r with
  | status => exact absurd rfl hr
  | _ => rfl

/-! ### CAP and the platform -/

theorem SeqEffect.platform {s t : State} (h : SeqEffect s t) : t.capVec = s.capVec ∧ t.busErr = s.busErr := by
  cases h <;> exact ⟨rfl, rfl⟩

theorem CommandEffect.platform {s t : State} (h : CommandEffect s t) : t.capVec = s.capVec ∧ t.busErr = s.busErr := by
  cases h <;> exact ⟨rfl, rfl⟩

theorem HostEffect.platform {s t : State} (h : HostEffect s t) : t.capVec = s.capVec ∧ t.busErr = s.busErr := by
  cases h with
  | command hc => exact hc.platform
  | register r d => exact ⟨writeRegister_capVec r d s, writeRegister_busErr r d s⟩
  | _ => exact ⟨rfl, rfl⟩

/-- Settles O49: none of the effects of a step writes CAP or the platform predicate. -/
theorem capAndPlatformAreConstant : Obligations.CapAndPlatformAreConstant := by
  intro s t h
  obtain ⟨ts, ops, hseq | hhost⟩ := step_next_effect h
  · exact hseq.platform
  · exact hhost.platform

/-! ### The operands of a run -/

/-- The registers that a running stream command works from, with the register-step registers beside it
(42_stream R175, 10_state R40). -/
structure RunOperands where
  capVec : Bool
  cfg    : Cfg
  src    : Word
  dst    : Word
  len    : Word
  xin    : Lanes
  xout   : Word
  pfx    : Lanes
  rkind  : RunKind

/-- The operands a state holds. -/
def State.runOperands (s : State) : RunOperands where
  capVec := s.capVec
  cfg    := s.cfg
  src    := s.src
  dst    := s.dst
  len    := s.len
  xin    := s.xin
  xout   := s.xout
  pfx    := s.pfx
  rkind  := s.rkind

theorem runOperands_eq_iff {s t : State} :
    t.runOperands = s.runOperands ↔
      t.capVec = s.capVec ∧ t.cfg = s.cfg ∧ t.src = s.src ∧ t.dst = s.dst ∧ t.len = s.len ∧ t.xin = s.xin ∧
      t.xout = s.xout ∧ t.pfx = s.pfx ∧ t.rkind = s.rkind := by
  simp only [State.runOperands, RunOperands.mk.injEq]

/-- No SEQ step writes an operand (42_stream R66, R182). -/
theorem SeqEffect.runOperands {s t : State} (h : SeqEffect s t) : t.runOperands = s.runOperands := by
  cases h <;> rfl

/-- While BUSY = 1 every command is only ignored (10_state R40). -/
theorem CommandEffect.eq_of_busy {s t : State} (h : CommandEffect s t) (hb : s.status.busy = true) :
    t = ignoreWrite s := by
  cases h with
  | ignored => rfl
  | rejected _ hi => simp [hb] at hi
  | accepted _ hi => simp [hb] at hi
  | registerStep _ _ _ hi => simp [hb] at hi

/-- The host writes no operand while a run goes on: what it could do is ignored, or is reset, which ends the run. -/
theorem HostEffect.runOperands {s t : State} (h : HostEffect s t) (hb : s.status.busy = true)
    (ht : t.status.busy = true) : t.runOperands = s.runOperands := by
  cases h with
  | command hc => rw [hc.eq_of_busy hb]; rfl
  | register _ _ _ hi => simp [hb] at hi
  | reset => cases ht
  | _ => rfl

/-- Settles O50: by the effects of SEQ and of the host, none of which writes an operand while the run goes on. -/
theorem operandsAreConstantDuringARun : Obligations.OperandsAreConstantDuringARun := by
  intro s t hb h ht
  have hkept : t.runOperands = s.runOperands := by
    obtain ⟨ts, ops, hseq | hhost⟩ := step_next_effect h
    · exact hseq.runOperands
    · exact hhost.runOperands hb ht
  exact (runOperands_eq_iff.1 hkept).2

/-! ### STATUS keeps its shape -/

/-- The part of the invariant that is about STATUS alone (10_state R28, 60_exceptions R201). -/
structure Status.WellFormed (t : Status) : Prop where
  ecodeZeroIffNoError : t.ecode = .noError ↔ t.err = false
  busyNotDone : t.busy = true → t.done = false

theorem State.Inv.status {s : State} (h : s.Inv) : s.status.WellFormed := ⟨h.ecodeZeroIffNoError, h.busyNotDone⟩

theorem Status.WellFormed.latch {t : Status} (h : t.WellFormed) {e : ErrCode} (he : e ≠ .noError) :
    (t.latch e).WellFormed where
  ecodeZeroIffNoError := by
    rw [Status.latch_ecode, Status.latch_err]
    cases hr : t.err with
    | true => simp [h.ecodeZeroIffNoError, hr]
    | false => simp [he]
  busyNotDone := by simpa using h.busyNotDone

theorem Status.WellFormed.noteIgnoredWrite {t : Status} (h : t.WellFormed) : t.noteIgnoredWrite.WellFormed :=
  ⟨h.ecodeZeroIffNoError, h.busyNotDone⟩

theorem Status.WellFormed.start {t : Status} (h : t.WellFormed) : t.start.WellFormed :=
  ⟨h.ecodeZeroIffNoError, fun _ => rfl⟩

theorem Status.WellFormed.finish {t : Status} (h : t.WellFormed) : t.finish.WellFormed :=
  ⟨h.ecodeZeroIffNoError, nofun⟩

theorem Status.WellFormed.writeOneToClear {t : Status} (h : t.WellFormed) (d : Word) :
    (t.writeOneToClear d).WellFormed where
  ecodeZeroIffNoError := by
    rw [Status.writeOneToClear_ecode, Status.writeOneToClear_err]
    cases d.getLsbD 2 with
    | true => simp
    | false => simpa using h.ecodeZeroIffNoError
  busyNotDone hb := by simp [h.busyNotDone hb]

theorem Status.WellFormed.endWithBusError {s : State} (h : s.status.WellFormed) (addr : Nat) (dir : Dir) :
    (Machine.endWithBusError addr dir s).status.WellFormed := by
  cases dir with
  | read => exact (h.latch (by decide)).finish
  | write => exact (h.latch (by decide)).finish

theorem Status.wellFormed_reset : State.reset.status.WellFormed := ⟨by decide, nofun⟩

/-! ### The invariant from its parts -/

/-- A run's operands stay well formed while they stay as they are and POS keeps its bounds. -/
theorem State.RunWellFormed.congr {s t : State} (h : s.RunWellFormed) (ho : t.runOperands = s.runOperands)
    (hle : t.pos.toNat ≤ s.len.toNat)
    (hfours : s.rkind = .run4 → t.pos.toNat % 4 = 0 ∨ 4 * (s.len.toNat / 4) ≤ t.pos.toNat) : t.RunWellFormed := by
  obtain ⟨hvec, -, hsrc, hdst, hlen, -, -, -, hkind⟩ := runOperands_eq_iff.1 ho
  have hbuf : t.buffers = s.buffers := by rw [State.buffers, hsrc, hdst, hlen]; rfl
  exact {
    vectorPresent := by rw [hkind, hvec]; exact h.vectorPresent
    elementAligned := by rw [hsrc]; exact h.elementAligned
    blockAligned := by rw [hkind, hsrc]; exact h.blockAligned
    inputFits := by rw [hsrc, hlen]; exact h.inputFits
    outputFits := by rw [hdst, hlen]; exact h.outputFits
    buffersDisjoint := fun a => by rw [inInputRange, inOutputRange, hbuf]; exact h.buffersDisjoint a
    posInRange := by rw [hlen]; exact hle
    blocksStartAtFours := by rw [hkind, hlen]; exact hfours }

/-- While BUSY = 0 the invariant is about memory and STATUS only. -/
theorem State.Inv.of_idle {t : State} (hm : t.mem.wf = true) (hst : t.status.WellFormed)
    (hb : t.status.busy = false) : t.Inv where
  memCanonical := hm
  ecodeZeroIffNoError := hst.ecodeZeroIffNoError
  busyNotDone := hst.busyNotDone
  runWellFormed ht := by simp [hb] at ht
  runOpen ht := by simp [hb] at ht

/-- The invariant is kept where BUSY, the operands and the races stay, POS keeps its bounds, and memory and STATUS keep
their shape. -/
theorem State.Inv.of_run_kept {s t : State} (h : s.Inv) (hm : t.mem.wf = true) (hst : t.status.WellFormed)
    (hb : t.status.busy = s.status.busy) (ho : t.runOperands = s.runOperands)
    (hopen : s.status.busy = true → t.openRuns = s.openRuns)
    (hpos : s.status.busy = true → t.pos.toNat ≤ s.len.toNat ∧
      (s.rkind = .run4 → t.pos.toNat % 4 = 0 ∨ 4 * (s.len.toNat / 4) ≤ t.pos.toNat)) : t.Inv where
  memCanonical := hm
  ecodeZeroIffNoError := hst.ecodeZeroIffNoError
  busyNotDone := hst.busyNotDone
  runWellFormed ht := by
    rw [hb] at ht
    exact (h.runWellFormed ht).congr ho (hpos ht).1 (hpos ht).2
  runOpen ht := by
    rw [hb] at ht
    obtain ⟨-, -, hsrc, hdst, hlen, -⟩ := runOperands_eq_iff.1 ho
    rw [hopen ht, State.buffers, hsrc, hdst, hlen]
    exact h.runOpen ht

/-- The case of `of_run_kept` in which POS does not move. -/
theorem State.Inv.of_pos_kept {s t : State} (h : s.Inv) (hm : t.mem.wf = true) (hst : t.status.WellFormed)
    (hb : t.status.busy = s.status.busy) (ho : t.runOperands = s.runOperands)
    (hopen : s.status.busy = true → t.openRuns = s.openRuns) (hpos : t.pos = s.pos) : t.Inv :=
  h.of_run_kept hm hst hb ho hopen fun hr => by
    rw [hpos]
    exact ⟨(h.runWellFormed hr).posInRange, (h.runWellFormed hr).blocksStartAtFours⟩

theorem State.Inv.withSchedule {s : State} (h : s.Inv) (ts : List Agent) (ops : List HostOp) :
    (s.withSchedule ts ops).Inv :=
  h.of_pos_kept h.memCanonical h.status rfl rfl (fun _ => rfl) rfl

/-! ### Every effect keeps the invariant -/

/-- What the acceptance checks establish (42_stream R171 to R175). -/
theorem acceptStream_runWellFormed {kind : RunKind} {s : State} (hc : acceptCheck kind s = none)
    (hv : kind = .run4 → s.capVec = true) : (acceptStream kind s).RunWellFormed := by
  obtain ⟨halign, hin, hout, hdisj⟩ := acceptCheck_eq_none.1 hc
  exact {
    vectorPresent := hv
    elementAligned := by cases kind <;> simp only [RunKind.alignment, acceptStream_src] at halign ⊢ <;> omega
    blockAligned := by rintro rfl; exact halign
    inputFits := hin
    outputFits := hout
    buffersDisjoint := fun a ha => by
      rw [inInputRange_iff] at ha
      rw [Bool.eq_false_iff, Ne, inOutputRange_iff]
      simp only [acceptStream_src, acceptStream_dst, acceptStream_len] at ha ⊢
      omega
    posInRange := Nat.zero_le _
    blocksStartAtFours := fun _ => .inl rfl }

theorem CommandEffect.inv {s t : State} (h : CommandEffect s t) (hi : s.Inv) : t.Inv := by
  cases h with
  | ignored hb => exact hi.of_pos_kept hi.memCanonical hi.status.noteIgnoredWrite rfl rfl (fun _ => rfl) rfl
  | rejected e hb he => exact .of_idle hi.memCanonical (hi.status.latch he) (by simpa using hb)
  | accepted kind hb hc hv =>
    have hst : s.status.start.WellFormed := hi.status.start
    exact ⟨hi.memCanonical, hst.ecodeZeroIffNoError, hst.busyNotDone, fun _ => acceptStream_runWellFormed hc hv,
      fun _ => List.mem_cons_self⟩
  | registerStep a p x hb => exact .of_idle hi.memCanonical hi.status hb

theorem HostEffect.inv {s t : State} (h : HostEffect s t) (hi : s.Inv) : t.Inv := by
  cases h with
  | command hc => exact hc.inv hi
  | status d => exact hi.of_pos_kept hi.memCanonical (hi.status.writeOneToClear d) rfl rfl (fun _ => rfl) rfl
  | register r d hr hb =>
    refine .of_idle ?_ ?_ ?_
    · rw [writeRegister_mem]; exact hi.memCanonical
    · rw [writeRegister_status hr]; exact hi.status
    · rw [writeRegister_busy]; exact hb
  | hostOnly prog notes runs hr =>
    refine hi.of_pos_kept hi.memCanonical hi.status rfl rfl (fun hb => ?_) rfl
    rcases hr with hr | ⟨hidle, -⟩
    · exact hr
    · simp [hb] at hidle
  | memory addr b =>
    exact hi.of_pos_kept (Memory.write_wf b hi.memCanonical addr.isLt) hi.status rfl rfl (fun _ => rfl) rfl
  | reset => exact .of_idle hi.memCanonical Status.wellFormed_reset rfl

/-- A unit moves POS on by its samples, within LEN, and from a multiple of 4 to the next until the tail (42_stream R177). -/
theorem unit_pos {s : State} (hr : s.RunWellFormed) (hp : s.pos ≠ s.len) {k n : Nat}
    (hk : n = 1 ∧ k = s.pos.toNat ∧ (s.rkind = .run1 ∨ s.len.toNat - s.pos.toNat < 4) ∨
      n = 4 ∧ k = 4 * (s.pos.toNat / 4) ∧ s.rkind = .run4 ∧ s.len.toNat - s.pos.toNat ≥ 4) :
    (BitVec.ofNat 32 (k + n)).toNat = s.pos.toNat + n ∧ s.pos.toNat + n ≤ s.len.toNat ∧
      (s.rkind = .run4 → (s.pos.toNat + n) % 4 = 0 ∨ 4 * (s.len.toNat / 4) ≤ s.pos.toNat + n) := by
  have hle := hr.posInRange
  have hfours := hr.blocksStartAtFours
  have hlen := s.len.isLt
  have hne : s.pos.toNat ≠ s.len.toNat := fun h => hp (BitVec.eq_of_toNat_eq h)
  rw [BitVec.toNat_ofNat]
  rcases hk with ⟨rfl, rfl, hscalar⟩ | ⟨rfl, rfl, hblock, hge⟩
  · refine ⟨Nat.mod_eq_of_lt (by omega), by omega, fun h4 => ?_⟩
    have htail : s.len.toNat - s.pos.toNat < 4 := hscalar.resolve_left (by simp [h4])
    have := hfours h4
    omega
  · have hat : s.pos.toNat % 4 = 0 := (hfours hblock).resolve_right (by omega)
    refine ⟨?_, by omega, fun _ => .inl (by omega)⟩
    rw [Nat.mod_eq_of_lt (by omega)]
    omega

theorem SeqEffect.inv {s t : State} (h : SeqEffect s t) (hi : s.Inv) : t.Inv := by
  cases h with
  | idle => exact hi
  | finish => exact .of_idle hi.memCanonical hi.status.finish rfl
  | busError addr dir =>
    exact .of_idle hi.memCanonical (hi.status.endWithBusError addr dir) (by cases dir <;> rfl)
  | unit k bs a hb hp hk ha =>
    obtain ⟨hpos, hle, hfours⟩ := unit_pos (hi.runWellFormed hb) hp hk
    refine hi.of_run_kept (Memory.writeBytes_wf bs hi.memCanonical (writeAdmitted_iff.1 ha).2) hi.status rfl rfl
      (fun _ => rfl) fun _ => ?_
    rw [hpos]
    exact ⟨hle, hfours⟩

/-- Settles O56: every effect of SEQ and of the host keeps the invariant. -/
theorem invariantIsKeptByEveryStep : Obligations.InvariantIsKeptByEveryStep := by
  intro s t hi h
  obtain ⟨ts, ops, hseq | hhost⟩ := step_next_effect h
  · exact hseq.inv (hi.withSchedule ts ops)
  · exact hhost.inv (hi.withSchedule ts ops)

end Sys2Proof.Machine
end

section
/-! PROOFS. The host's register port: which register an offset names, what a read returns and what a write does. -/

namespace Sys2Proof.Machine

open Sys2Proof

/-! ### Offsets and registers -/

@[simp] theorem atOffset_offset (r : Reg) : Reg.atOffset r.offset = some r := by
  cases r <;> rfl

theorem offset_of_atOffset {off : Byte} {r : Reg} (h : Reg.atOffset off = some r) : off = r.offset := by
  have := List.find?_some h
  exact (beq_iff_eq.1 this).symm

theorem offset_le (r : Reg) : r.offset.toNat ≤ 0x48 := by
  cases r <;> decide

/-- From 0x4C on nothing is mapped (10_state R25). -/
theorem atOffset_unmapped {off : Byte} (h : off.toNat ≥ 0x4C) : Reg.atOffset off = none := by
  cases hr : Reg.atOffset off with
  | none => rfl
  | some r =>
    have := offset_le r
    rw [← offset_of_atOffset hr] at this
    omega

/-! ### Reads -/

@[simp] theorem readOffset_offset (s : State) (r : Reg) : readOffset s r.offset = readRegister s r := by
  rw [readOffset, atOffset_offset]

theorem readOffset_unmapped (s : State) {off : Byte} (h : off.toNat ≥ 0x4C) : readOffset s off = 0x00000000#32 := by
  rw [readOffset, atOffset_unmapped h]

theorem capWord_eq (vec : Bool) : capWord vec = if vec then 1#32 else 0#32 := by
  cases vec <;> rfl

theorem Cfg.word_toNat (c : Cfg) : c.word.toNat = c.scale.toNat + 2 * c.rnd.toNat := by
  have h : c.word.toNat = (0#30 ++ BitVec.ofBool c.rnd ++ BitVec.ofBool c.scale : BitVec (30 + 1 + 1)).toNat := rfl
  rw [h, toNat_append_add, toNat_append_add, BitVec.toNat_ofBool, BitVec.toNat_ofBool, BitVec.toNat_ofNat]
  omega

theorem Status.word_toNat (t : Status) :
    t.word.toNat = t.busy.toNat + 2 * t.done.toNat + 4 * t.err.toNat + 8 * t.wign.toNat + 16 * t.ecode.bits.toNat := by
  have h : t.word.toNat = (0#24 ++ t.ecode.bits ++ BitVec.ofBool t.wign ++ BitVec.ofBool t.err ++
      BitVec.ofBool t.done ++ BitVec.ofBool t.busy : BitVec (24 + 4 + 1 + 1 + 1 + 1)).toNat := rfl
  simp only [h, toNat_append_add, BitVec.toNat_ofBool, BitVec.toNat_ofNat]
  omega

/-! ### Transactions -/

/-- A 32-bit access at an aligned offset is a transaction (30_encoding R84). -/
theorem registerAccess_word {off : Byte} (h : off.toNat % 4 = 0) (k : State → Result) (s : State) :
    registerAccess off 4 k s = k s := by
  simp [registerAccess, registerAccessDefined, h]

/-- An access that answers a next state was a transaction. -/
theorem registerAccess_next {off : Byte} {size : Nat} {k : State → Result} {s t : State}
    (h : registerAccess off size k s = .next t) : size = 4 ∧ k s = .next t := by
  unfold registerAccess at h
  split at h
  · rename_i hd
    rw [registerAccessDefined, Bool.and_eq_true, beq_iff_eq] at hd
    exact ⟨hd.1, h⟩
  · cases h

theorem offset_aligned (r : Reg) : r.offset.toNat % 4 = 0 := by
  cases r <;> decide

theorem hostOp_rd {off : Byte} (h : off.toNat % 4 = 0) (s : State) :
    hostOp (.rd off 4) s = .next (noteRegRead off s) :=
  registerAccess_word h _ s

theorem hostOp_wr {off : Byte} (h : off.toNat % 4 = 0) (d : Word) (s : State) :
    hostOp (.wr off 4 d) s = hostWrite off d s :=
  registerAccess_word h _ s

/-! ### Writes -/

theorem issueWord_busy {s : State} (hb : s.status.busy = true) (w : Word) : issueWord w s = .next (ignoreWrite s) := by
  unfold issueWord
  split
  · exact exec_busy _ hb
  · exact whenIdle_busy hb _

/-- A write to a register other than CMD. -/
theorem hostWrite_of_ne_cmd {off : Byte} {r : Reg} (h : Reg.atOffset off = some r) (hr : r ≠ .cmd) (d : Word)
    (s : State) :
    hostWrite off d s =
      .next (if s.status.busy && r.lockedWhileBusy then ignoreWrite s else writeRegister r d s) := by
  unfold hostWrite
  rw [h]
  cases r with
  | cmd => exact absurd rfl hr
  | _ => rfl

/-- A write to CMD issues the word. -/
theorem hostOp_wr_cmd (d : Word) (s : State) : hostOp (.wr Reg.cmd.offset 4 d) s = issueWord d s := by
  rw [hostOp_wr (offset_aligned .cmd), hostWrite, atOffset_offset]

/-- A write that is not ignored, to a register other than CMD (10_state R38). -/
theorem hostOp_wr_taken {r : Reg} {s : State} (hr : r ≠ .cmd)
    (h : s.status.busy = false ∨ r.lockedWhileBusy = false) (d : Word) :
    hostOp (.wr r.offset 4 d) s = .next (writeRegister r d s) := by
  rw [hostOp_wr (offset_aligned r), hostWrite_of_ne_cmd (atOffset_offset r) hr, if_neg]
  rcases h with h | h <;> simp [h]

/-- A write that is ignored, CMD's among them (10_state R40). -/
theorem hostOp_wr_ignored {r : Reg} {s : State} (hb : s.status.busy = true) (hl : r.lockedWhileBusy = true)
    (d : Word) : hostOp (.wr r.offset 4 d) s = .next (ignoreWrite s) := by
  by_cases hr : r = .cmd
  · rw [hr, hostOp_wr_cmd, issueWord_busy hb]
  · rw [hostOp_wr (offset_aligned r), hostWrite_of_ne_cmd (atOffset_offset r) hr, if_pos]
    simp [hb, hl]

/-- The registers at 0x00 and from 0x30 on are read-only, and never locked (10_state R38, R40). -/
theorem writeRegister_readOnly {r : Reg} (h : r.offset.toNat = 0x00 ∨ r.offset.toNat ≥ 0x30) :
    r ≠ .cmd ∧ r.lockedWhileBusy = false ∧ ∀ (d : Word) (s : State), writeRegister r d s = s := by
  cases r with
  | cap | xout | pfx0 | pfx1 | pfx2 | pfx3 | pos | faddr => exact ⟨by decide, rfl, fun _ _ => rfl⟩
  | _ => exact absurd h (by decide)

/-- A write to a read-only or unmapped offset does nothing, busy or not. -/
theorem hostOp_wr_readOnly {off : Byte} (hal : off.toNat % 4 = 0) (h : off.toNat = 0x00 ∨ off.toNat ≥ 0x30)
    (d : Word) (s : State) : hostOp (.wr off 4 d) s = .next s := by
  cases hr : Reg.atOffset off with
  | none => rw [hostOp_wr hal, hostWrite, hr]
  | some r =>
    obtain rfl := offset_of_atOffset hr
    obtain ⟨hcmd, hfree, hsame⟩ := writeRegister_readOnly h
    rw [hostOp_wr_taken hcmd (.inr hfree), hsame]

theorem hostOp_wr_status (d : Word) (s : State) : hostOp (.wr Reg.status.offset 4 d) s = .next (writeStatus d s) :=
  hostOp_wr_taken (by decide) (.inr rfl) d

/-! ### The statements -/

/-- Settles O9: every command starts with the busy guard. -/
theorem commandsAreIgnoredWhileBusy : Obligations.CommandsAreIgnoredWhileBusy :=
  fun i _ hb => exec_busy i hb

/-- Settles O41: the read of each register is the read of the offset the map gives it. -/
theorem hostReadsReturnTheRegisters : Obligations.HostReadsReturnTheRegisters := by
  intro s
  refine ⟨fun off hal => hostOp_rd hal s, ?cap, ?cfg, ?status, rfl, readOffset_offset s .cmd,
    readOffset_offset s .acc, readOffset_offset s .src, readOffset_offset s .dst, readOffset_offset s .len,
    readOffset_offset s .xin0, readOffset_offset s .xin1, readOffset_offset s .xin2, readOffset_offset s .xin3,
    readOffset_offset s .xout, readOffset_offset s .pfx0, readOffset_offset s .pfx1, readOffset_offset s .pfx2,
    readOffset_offset s .pfx3, readOffset_offset s .pos, readOffset_offset s .faddr,
    fun off h => readOffset_unmapped s h⟩
  case cap => exact (readOffset_offset s .cap).trans (capWord_eq s.capVec)
  case cfg => exact (congrArg BitVec.toNat (readOffset_offset s .cfg)).trans s.cfg.word_toNat
  case status => exact (congrArg BitVec.toNat (readOffset_offset s .status)).trans s.status.word_toNat

/-- Settles O42: while BUSY = 0 no write is ignored, so each offset's write is its register's. -/
theorem hostWritesWhileIdle : Obligations.HostWritesWhileIdle := by
  intro s d hb
  have taken {r : Reg} (hr : r ≠ .cmd) : hostOp (.wr r.offset 4 d) s = .next (writeRegister r d s) :=
    hostOp_wr_taken hr (.inl hb) d
  refine ⟨taken (r := .cfg) (by decide), taken (r := .acc) (by decide), taken (r := .src) (by decide),
    taken (r := .dst) (by decide), taken (r := .len) (by decide), taken (r := .xin0) (by decide),
    taken (r := .xin1) (by decide), taken (r := .xin2) (by decide), taken (r := .xin3) (by decide),
    hostOp_wr_status d s, fun i hi => ?_, fun off hal h => hostOp_wr_readOnly hal h d s⟩
  exact (hostOp_wr_cmd d s).trans (by rw [issueWord, hi])

/-- Settles O43: a write to STATUS is never ignored, and each bit clears its own field. -/
theorem statusWritesOneToClear : Obligations.StatusWritesOneToClear := by
  intro s d
  refine ⟨s.status.writeOneToClear d, hostOp_wr_status d s, rfl, ?_, ?_, rfl, ?_⟩
  · rw [Status.writeOneToClear_done]; cases d.getLsbD 1 <;> simp
  · rw [Status.writeOneToClear_err]; cases d.getLsbD 2 <;> simp
  · rw [Status.writeOneToClear_wign]; cases d.getLsbD 3 <;> simp

/-- Settles O44: the ten offsets listed are those of the locked registers. -/
theorem hostWritesWhileBusyAreIgnored : Obligations.HostWritesWhileBusyAreIgnored := by
  intro s d hb
  refine ⟨fun off hoff => ?_, fun off hal h => hostOp_wr_readOnly hal h d s, hostOp_wr_status d s⟩
  obtain ⟨r, hr, rfl⟩ := (List.mem_map (f := Reg.offset)
    (l := [.cfg, .cmd, .acc, .src, .dst, .len, .xin0, .xin1, .xin2, .xin3])).1 hoff
  have hl : r.lockedWhileBusy = true := by
    revert r
    decide
  exact hostOp_wr_ignored hb hl d

end Sys2Proof.Machine
end

section
/-! PROOFS. FADDR and BUSY: which host operations can change them, and the two statements about the whole machine. -/

namespace Sys2Proof.Machine

open Sys2Proof

/-! ### What a host operation can change -/

/-- Reset and a write to CMD apart, no host operation changes FADDR or BUSY. -/
theorem hostOp_next_cases {op : HostOp} {s t : State} (h : hostOp op s = .next t) :
    (op = .reset ∧ t = resetBlock s) ∨
    (∃ w, op = .wr Reg.cmd.offset 4 w ∧ issueWord w s = .next t) ∨
    (t.faddr = s.faddr ∧ t.status.busy = s.status.busy) := by
  cases op with
  | rd off size =>
    obtain ⟨-, hk⟩ := registerAccess_next h
    injection hk with hk
    subst hk
    exact .inr (.inr ⟨rfl, rfl⟩)
  | wr off size d =>
    obtain ⟨rfl, hk⟩ := registerAccess_next h
    cases hr : Reg.atOffset off with
    | none =>
      rw [hostWrite, hr] at hk
      injection hk with hk
      exact .inr (.inr ⟨by rw [hk], by rw [hk]⟩)
    | some r =>
      by_cases hcmd : r = .cmd
      · obtain rfl := offset_of_atOffset hr
        subst hcmd
        exact .inr (.inl ⟨d, rfl, (hostOp_wr_cmd d s).symm.trans h⟩)
      · rw [hostWrite_of_ne_cmd hr hcmd] at hk
        injection hk with hk
        subst hk
        refine .inr (.inr ?_)
        split
        · exact ⟨rfl, rfl⟩
        · exact ⟨writeRegister_faddr r d s, writeRegister_busy r d s⟩
  | poll off lo width v =>
    obtain ⟨-, hk⟩ := registerAccess_next h
    unfold hostPoll at hk
    refine .inr (.inr ?_)
    split at hk
    · injection hk with hk
      exact ⟨by rw [← hk]; rfl, by rw [← hk]; rfl⟩
    · injection hk with hk
      exact ⟨by rw [← hk]; rfl, by rw [← hk]; rfl⟩
  | memRd addr =>
    simp only [hostOp, hostMemRead] at h
    split at h
    · cases h
    · injection h with h
      subst h
      exact .inr (.inr ⟨rfl, rfl⟩)
  | memWr addr b =>
    simp only [hostOp, hostMemWrite] at h
    split at h
    · cases h
    · split at h
      · cases h
      · injection h with h
        subst h
        exact .inr (.inr ⟨rfl, rfl⟩)
  | reset =>
    injection h with h
    exact .inl ⟨rfl, h.symm⟩

/-- No command, accepted or not, touches FADDR (10_state R36). -/
theorem CommandEffect.faddr {s t : State} (h : CommandEffect s t) : t.faddr = s.faddr := by
  cases h <;> rfl

theorem issueWord_next_effect {w : Word} {s t : State} (h : issueWord w s = .next t) : CommandEffect s t := by
  obtain ⟨t', ht, he⟩ := issueWord_effect w s
  rw [ht] at h
  injection h with h
  exact h ▸ he

/-- A bus error ends the run, with DONE and ERR (60_exceptions R205). -/
theorem endWithBusError_ends (addr : Nat) (dir : Dir) (s : State) :
    (endWithBusError addr dir s).status.busy = false ∧ (endWithBusError addr dir s).status.done = true ∧
      (endWithBusError addr dir s).status.err = true := by
  cases dir <;> simp

/-- Settles O51: SEQ writes FADDR only when a request fails, and the host only by reset. -/
theorem faddrChangesOnlyByBusErrorOrReset : Obligations.FaddrChangesOnlyByBusErrorOrReset := by
  intro s t h hne
  rcases step_next_cases h with ⟨ts, ops, he⟩ | ⟨ts, rfl⟩ | ⟨op, ts, ops, hop, ho⟩
  · cases he with
    | busError addr dir hb _ hf =>
      obtain ⟨hbusy, hdone, herr⟩ := endWithBusError_ends addr dir (s.withSchedule ts ops)
      exact .inl ⟨hb, hbusy, hdone, herr, addr, dir, hf, rfl⟩
    | _ => exact absurd rfl hne
  · exact absurd rfl hne
  · rcases hostOp_next_cases ho with ⟨rfl, rfl⟩ | ⟨w, -, hw⟩ | ⟨hsame, -⟩
    · exact .inr ⟨⟨ops, hop⟩, rfl⟩
    · exact absurd (issueWord_next_effect hw).faddr hne
    · exact absurd hsame hne

/-! ### What raises BUSY -/

/-- A word with `RSV = 0` is its opcode field (30_encoding R81). -/
theorem toNat_eq_opField {w : Word} (h : rsvField w = 0) : w.toNat = (opField w).toNat := by
  have hrsv : w.toNat / 2 ^ 8 % 2 ^ 24 = 0 := by
    simpa [rsvField, Nat.shiftRight_eq_div_pow] using congrArg BitVec.toNat h
  have hop : (opField w).toNat = w.toNat % 2 ^ 8 := by simp [opField]
  have := w.isLt
  omega

/-- An opcode names a command only as the low byte of its match value. -/
theorem opcodeInstr_eq_some {op : Byte} {i : Instr} (h : opcodeInstr op = some i) : op.toNat = (encode i).toNat := by
  unfold opcodeInstr at h
  split at h <;> cases h <;> assumption

/-- A word that decodes is its command's match value (30_encoding R82, R85). -/
theorem eq_encode_of_decode {vec : Bool} {w : Word} {i : Instr} (h : decode vec w = .ok i) : w = encode i := by
  unfold decode at h
  split at h
  · cases h
  · rename_i hrsv
    split at h
    · cases h
    · rename_i j hop
      split at h
      · injection h with h
        subst h
        refine BitVec.eq_of_toNat_eq ?_
        rw [toNat_eq_opField (not_not.1 hrsv), opcodeInstr_eq_some hop]
      · cases h

theorem issueStream_raises_busy {kind : RunKind} {s : State} (hb : s.status.busy = false)
    (ht : (issueStream kind s).status.busy = true) : acceptCheck kind s = none := by
  unfold issueStream at ht
  split at ht
  · simp [hb] at ht
  · assumption

/-- Only a stream command that passes its checks raises BUSY (42_stream R175). -/
theorem exec_raises_busy {i : Instr} {s t : State} (h : exec i s = .next t) (hb : s.status.busy = false)
    (ht : t.status.busy = true) :
    ∃ kind : RunKind, i = kind.instr ∧ (kind = .run4 → s.capVec = true) ∧ acceptCheck kind s = none := by
  have raised {t' : State} (he : exec i s = .next t') : t'.status.busy = true := by
    rw [he] at h
    injection h with h
    rwa [h]
  have vec (hi : i = .step4 ∨ i = .cvt4 ∨ i = .run4) : s.capVec = true := by
    by_contra hv
    have := raised (exec_vectorAbsent hb (by simpa using hv) hi)
    simp [hb] at this
  cases i with
  | nop => simpa [hb] using raised (exec_nop hb)
  | clr => simpa [hb] using raised (exec_clr hb)
  | step1 => simpa [hb] using raised (exec_step1 hb)
  | cvt1 => simpa [hb] using raised (exec_cvt1 hb)
  | step4 => simpa [hb] using raised (exec_step4 hb (vec (by simp)))
  | cvt4 => simpa [hb] using raised (exec_cvt4 hb (vec (by simp)))
  | run1 => exact ⟨.run1, rfl, nofun, issueStream_raises_busy hb (raised (exec_run1 hb))⟩
  | run4 =>
    have hv := vec (by simp)
    exact ⟨.run4, rfl, fun _ => hv, issueStream_raises_busy hb (raised (exec_run4 hb hv))⟩

theorem issueWord_raises_busy {w : Word} {s t : State} (h : issueWord w s = .next t) (hb : s.status.busy = false)
    (ht : t.status.busy = true) :
    ∃ kind : RunKind, w = encode kind.instr ∧ (kind = .run4 → s.capVec = true) ∧ acceptCheck kind s = none := by
  unfold issueWord at h
  split at h
  · rename_i i hd
    obtain ⟨kind, rfl, hk⟩ := exec_raises_busy h hb ht
    exact ⟨kind, eq_encode_of_decode hd, hk⟩
  · rw [whenIdle_idle hb] at h
    injection h with h
    subst h
    simp [hb] at ht

/-! ### BUSY over a step -/

theorem SeqEffect.not_raises_busy {s t : State} (h : SeqEffect s t) (hb : s.status.busy = false) :
    t.status.busy = false := by
  cases h with
  | idle => exact hb
  | finish hr => simp [hb] at hr
  | busError _ _ hr => simp [hb] at hr
  | unit _ _ _ hr => simp [hb] at hr

/-- SEQ drops BUSY only with DONE (42_stream R180, R181). -/
theorem SeqEffect.done_of_busy_falls {s t : State} (h : SeqEffect s t) (hb : s.status.busy = true)
    (ht : t.status.busy = false) : t.status.done = true := by
  cases h with
  | idle hi => simp [hb] at hi
  | finish => rfl
  | busError addr dir => exact (endWithBusError_ends addr dir s).2.1
  | unit => exact absurd (hb.symm.trans ht) (by decide)

/-- BUSY rises at a step only by the host's write of an accepted stream command's word to CMD. -/
theorem step_raises_busy {s t : State} (h : step s = .next t) (hb : s.status.busy = false)
    (ht : t.status.busy = true) :
    ∃ (kind : RunKind) (ops : List HostOp), s.hostProg = .wr Reg.cmd.offset 4 (encode kind.instr) :: ops ∧
      (kind = .run4 → s.capVec = true) ∧ acceptCheck kind s = none := by
  have stays (hf : t.status.busy = s.status.busy) : False := by simp [hb, ht] at hf
  rcases step_next_cases h with ⟨ts, ops, he⟩ | ⟨ts, rfl⟩ | ⟨op, ts, ops, hop, ho⟩
  · exact (stays ((he.not_raises_busy hb).trans hb.symm)).elim
  · exact (stays rfl).elim
  · rcases hostOp_next_cases ho with ⟨-, rfl⟩ | ⟨w, rfl, hw⟩ | ⟨-, hsame⟩
    · cases ht
    · obtain ⟨kind, rfl, hv, hc⟩ := issueWord_raises_busy hw hb ht
      exact ⟨kind, ops, hop, hv, hc⟩
    · exact (stays hsame).elim

/-- BUSY falls at a step only with DONE, or by reset. -/
theorem step_drops_busy {s t : State} (h : step s = .next t) (hb : s.status.busy = true)
    (ht : t.status.busy = false) : t.status.done = true ∨ ∃ ops, s.hostProg = .reset :: ops := by
  have stays (hf : t.status.busy = s.status.busy) : False := by simp [hb, ht] at hf
  rcases step_next_cases h with ⟨ts, ops, he⟩ | ⟨ts, rfl⟩ | ⟨op, ts, ops, hop, ho⟩
  · exact .inl (he.done_of_busy_falls hb ht)
  · exact (stays rfl).elim
  · rcases hostOp_next_cases ho with ⟨rfl, -⟩ | ⟨w, -, hw⟩ | ⟨-, hsame⟩
    · exact .inr ⟨ops, hop⟩
    · obtain rfl := (issueWord_next_effect hw).eq_of_busy hb
      exact (stays rfl).elim
    · exact (stays hsame).elim

/-- Settles O54: by the one way BUSY rises, an accepted stream command, and the two it falls, its end and reset. -/
theorem busyChangesOnlyByAcceptanceAndEnd : Obligations.BusyChangesOnlyByAcceptanceAndEnd := by
  intro s t h
  refine ⟨fun hb ht => ?_, step_drops_busy h⟩
  obtain ⟨kind, ops, hop, hv, hc⟩ := step_raises_busy h hb ht
  cases kind with
  | run1 => exact ⟨ops, .inl ⟨hop, hc⟩⟩
  | run4 => exact ⟨ops, .inr ⟨hop, hv rfl, hc⟩⟩

end Sys2Proof.Machine
end

section
/-! PROOFS. Memory: which host accesses race, which byte a step can change, the frame of a SEQ step, and that no state
of the invariant makes a request outside the port's forms. -/

namespace Sys2Proof.Machine

open Sys2Proof

/-! ### Races -/

theorem racesInput_iff {s : State} {a : Nat} :
    racesInput s a = true ↔ ∃ r ∈ s.openRuns, r.src.toNat ≤ a ∧ a < r.src.toNat + 4 * r.len.toNat := by
  simp only [racesInput, Buffers.inInput, List.any_eq_true, Bool.and_eq_true, decide_eq_true_eq]

theorem racesOutput_iff {s : State} {a : Nat} :
    racesOutput s a = true ↔ ∃ r ∈ s.openRuns, r.dst.toNat ≤ a ∧ a < r.dst.toNat + r.len.toNat := by
  simp only [racesOutput, Buffers.inOutput, List.any_eq_true, Bool.and_eq_true, decide_eq_true_eq]

theorem hostOp_memRd_race {s : State} {addr : Word} (h : racesOutput s addr.toNat = true) :
    hostOp (.memRd addr) s = .fault (.raceOnOutput addr) :=
  if_pos h

theorem hostOp_memRd_performs {s : State} {addr : Word} (h : racesOutput s addr.toNat ≠ true) :
    hostOp (.memRd addr) s = .next { s with reads := .mem addr (s.mem.read addr.toNat) :: s.reads } :=
  if_neg h

theorem hostOp_memWr_raceInput {s : State} {addr : Word} (h : racesInput s addr.toNat = true) (b : Byte) :
    hostOp (.memWr addr b) s = .fault (.raceOnInput addr) :=
  if_pos h

/-- A write that is in an input and an output is named by the input (log 5). -/
theorem hostOp_memWr_raceOutput {s : State} {addr : Word} (hin : racesInput s addr.toNat ≠ true)
    (hout : racesOutput s addr.toNat = true) (b : Byte) :
    hostOp (.memWr addr b) s = .fault (.raceOnOutput addr) :=
  (if_neg hin).trans (if_pos hout)

theorem hostOp_memWr_performs {s : State} {addr : Word} (hin : racesInput s addr.toNat ≠ true)
    (hout : racesOutput s addr.toNat ≠ true) (b : Byte) :
    hostOp (.memWr addr b) s = .next { s with mem := s.mem.write addr.toNat b } :=
  (if_neg hin).trans (if_neg hout)

/-- Settles O47: by whether the address is in the input or the output of a run whose window is open. -/
theorem racesStopAndOtherAccessesPerform : Obligations.RacesStopAndOtherAccessesPerform := by
  intro s addr b
  have hin := racesInput_iff (s := s) (a := addr.toNat)
  have hout := racesOutput_iff (s := s) (a := addr.toNat)
  refine ⟨fun h => ?_, fun h hno => ?_, fun h => ?_, fun hno => ?_, fun hno => ?_⟩
  · exact hostOp_memWr_raceInput (hin.2 h) b
  · refine hostOp_memWr_raceOutput (fun hr => ?_) (hout.2 h) b
    obtain ⟨r, hmem, hr⟩ := hin.1 hr
    exact hno r hmem hr
  · exact hostOp_memRd_race (hout.2 h)
  · refine hostOp_memRd_performs fun hr => ?_
    obtain ⟨r, hmem, hr⟩ := hout.1 hr
    exact hno r hmem hr
  · refine hostOp_memWr_performs (fun hr => ?_) (fun hr => ?_) b
    · obtain ⟨r, hmem, hr⟩ := hin.1 hr
      exact (hno r hmem).2 hr
    · obtain ⟨r, hmem, hr⟩ := hout.1 hr
      exact (hno r hmem).1 hr

/-! ### SEQ's requests are of the port's forms -/

theorem memRead_ne_notAdmitted {s : State} {addr n : Nat} (h : readAdmitted addr n = true) :
    memRead s addr n ≠ .notAdmitted := by
  cases hb : busErrAt s.busErr addr n .read with
  | true => simp [memRead_busError h hb]
  | false => simp [memRead_ok h hb]

theorem memWrite_ne_notAdmitted {s : State} {addr : Nat} {bs : List Byte} (h : writeAdmitted addr bs.length = true) :
    memWrite s addr bs ≠ .notAdmitted := by
  cases hb : busErrAt s.busErr addr bs.length .write with
  | true => simp [memWrite_busError h hb]
  | false => simp [memWrite_ok h hb]

/-- A scalar unit whose two requests the port admits does not stop the machine. -/
theorem scalarUnit_next {s : State} {k : Nat} (hr : readAdmitted (elementAddr s k) 4 = true)
    (hw : writeAdmitted (outputAddr s k) 1 = true) : ∃ t, scalarUnit k s = .next t := by
  unfold scalarUnit
  split
  · exact absurd ‹_› (memRead_ne_notAdmitted hr)
  · exact ⟨_, rfl⟩
  · simp only
    split
    · exact absurd ‹_› (memWrite_ne_notAdmitted hw)
    · exact ⟨_, rfl⟩
    · exact ⟨_, rfl⟩

/-- A block unit whose two requests the port admits does not stop the machine. -/
theorem blockUnit_next {s : State} {b : Nat} (hr : readAdmitted (blockAddr s b) 16 = true)
    (hw : writeAdmitted (outputAddr s (4 * b)) 4 = true) : ∃ t, blockUnit b s = .next t := by
  unfold blockUnit
  split
  · exact absurd ‹_› (memRead_ne_notAdmitted hr)
  · exact ⟨_, rfl⟩
  · simp only
    split
    · exact absurd ‹_› (memWrite_ne_notAdmitted hw)
    · exact ⟨_, rfl⟩
    · exact ⟨_, rfl⟩

/-- A sample before LEN is read and written by aligned requests within memory space (42_stream R172, R173, R178). -/
theorem State.RunWellFormed.scalarRequests {s : State} (h : s.RunWellFormed) (hp : s.pos ≠ s.len) :
    readAdmitted (elementAddr s s.pos.toNat) 4 = true ∧ writeAdmitted (outputAddr s s.pos.toNat) 1 = true := by
  have halign := h.elementAligned
  have hin := h.inputFits
  have hout := h.outputFits
  have hlt : s.pos.toNat < s.len.toNat :=
    Nat.lt_of_le_of_ne h.posInRange fun he => hp (BitVec.eq_of_toNat_eq he)
  constructor
  · exact readAdmitted_four (by unfold elementAddr; omega) (by unfold elementAddr; omega)
  · exact writeAdmitted_iff.2 ⟨.inl rfl, by unfold outputAddr; omega⟩

/-- A block with four samples before LEN is read and written by aligned requests within memory space
(42_stream R172, R173, R179). -/
theorem State.RunWellFormed.blockRequests {s : State} (h : s.RunWellFormed) (hk : s.rkind = .run4)
    (hge : s.len.toNat - s.pos.toNat ≥ 4) :
    readAdmitted (blockAddr s (s.pos.toNat / 4)) 16 = true ∧
      writeAdmitted (outputAddr s (4 * (s.pos.toNat / 4))) 4 = true := by
  have halign := h.blockAligned hk
  have hin := h.inputFits
  have hout := h.outputFits
  constructor
  · exact readAdmitted_sixteen (by unfold blockAddr; omega) (by unfold blockAddr; omega)
  · exact writeAdmitted_iff.2 ⟨.inr rfl, by unfold outputAddr; omega⟩

/-- From the invariant SEQ never stops the machine (log 8). -/
theorem State.Inv.seqStep_next {s : State} (hi : s.Inv) : ∃ t, seqStep s = .next t := by
  unfold seqStep
  split
  · exact ⟨s, rfl⟩
  · rename_i hb
    have hr := hi.runWellFormed (by simpa using hb)
    split
    · exact ⟨_, rfl⟩
    · split
      · rename_i hu
        obtain ⟨hkind, hge⟩ := hu
        obtain ⟨hread, hwrite⟩ := hr.blockRequests hkind hge
        exact blockUnit_next hread hwrite
      · obtain ⟨hread, hwrite⟩ := hr.scalarRequests ‹_›
        exact scalarUnit_next hread hwrite

theorem State.Inv.seqStep_safe {s : State} (hi : s.Inv) : safeOutcome (seqStep s) := by
  obtain ⟨t, ht⟩ := hi.seqStep_next
  rw [ht]
  exact (seqStep_effect ht).inv hi

theorem State.Inv.hostOp_safe {s : State} (hi : s.Inv) (op : HostOp) : safeOutcome (hostOp op s) := by
  rcases hostOp_effect op s with ⟨t, ht, he⟩ | ⟨addr, -, hf | hf⟩ | ⟨off, size, hf⟩
  · rw [ht]
    exact he.inv hi
  · rw [hf]; trivial
  · rw [hf]; trivial
  · rw [hf]; trivial

/-- Settles O57: SEQ goes on from every state of the invariant, and a host operation goes on, races or is refused. -/
theorem everyStepIsSafe : Obligations.EveryStepIsSafe := by
  intro s hi
  rcases step_cases s with ⟨ts, -, hs⟩ | ⟨ts, -, hs⟩
  · rw [hs]
    exact (hi.withSchedule ts s.hostProg).seqStep_safe
  · rw [hs]
    rcases hostStep_cases { s with turns := ts } with ⟨-, hn⟩ | ⟨op, ops, -, ho⟩
    · rw [hn]
      exact hi.withSchedule ts s.hostProg
    · rw [ho]
      exact (hi.withSchedule ts ops).hostOp_safe op

/-! ### The bytes a SEQ step changes -/

/-- A byte that a SEQ step changes is an output byte from POS before to POS after, which is within LEN
(20_memory R66, 42_stream R178, R179). -/
theorem SeqEffect.changed_byte {s t : State} (h : SeqEffect s t) (hi : s.Inv) {a : Nat}
    (hne : t.mem.read a ≠ s.mem.read a) :
    s.status.busy = true ∧ s.dst.toNat + s.pos.toNat ≤ a ∧ a < s.dst.toNat + t.pos.toNat ∧
      t.pos.toNat ≤ s.len.toNat := by
  cases h with
  | idle => exact absurd rfl hne
  | finish => exact absurd rfl hne
  | busError => exact absurd rfl hne
  | unit k bs acc hb hp hk =>
    obtain ⟨hpos, hle, -⟩ := unit_pos (hi.runWellFormed hb) hp hk
    have hlen := s.len.isLt
    have hstart : k = s.pos.toNat := by
      rw [BitVec.toNat_ofNat] at hpos
      omega
    have hwritten : ¬(a < outputAddr s k ∨ outputAddr s k + bs.length ≤ a) :=
      fun ho => hne (Memory.read_writeBytes_other s.mem bs ho)
    rw [outputAddr, hstart] at hwritten
    refine ⟨hb, ?_, ?_, ?_⟩
    · omega
    · rw [hpos]; omega
    · rw [hpos]; exact hle

theorem SeqEffect.wign {s t : State} (h : SeqEffect s t) : t.status.wign = s.status.wign := by
  cases h with
  | busError addr dir => cases dir <;> simp
  | _ => rfl

/-- SEQ writes FADDR and STATUS only as it ends a run (42_stream R180, R181). -/
theorem SeqEffect.faddr_status {s t : State} (h : SeqEffect s t) (ht : t.status.busy = true) :
    t.faddr = s.faddr ∧ t.status = s.status := by
  cases h with
  | idle => exact ⟨rfl, rfl⟩
  | unit => exact ⟨rfl, rfl⟩
  | finish => cases ht
  | busError addr dir => simp [(endWithBusError_ends addr dir s).1] at ht

/-- Settles O26: by the effects of SEQ, of which only a unit writes memory and only the end of a run STATUS or FADDR. -/
theorem seqStepFrame : Obligations.SeqStepFrame := by
  intro s t hi _ h
  have he := seqStep_effect h
  obtain ⟨hvec, hcfg, hsrc, hdst, hlen, hxin, hxout, hpfx, hkind⟩ := runOperands_eq_iff.1 he.runOperands
  refine ⟨hcfg, hsrc, hdst, hlen, hxin, hxout, hpfx, hkind, he.wign, hvec, he.faddr_status, fun a ha => ?_⟩
  by_contra hne
  obtain ⟨-, hfrom, hto, -⟩ := he.changed_byte hi hne
  exact ha ⟨hfrom, hto⟩

/-! ### The bytes a host operation changes -/

theorem CommandEffect.mem {s t : State} (h : CommandEffect s t) : t.mem = s.mem := by
  cases h <;> rfl

/-- No register write touches memory, a write to CMD included. -/
theorem hostWrite_next_mem {off : Byte} {d : Word} {s t : State} (h : hostWrite off d s = .next t) :
    t.mem = s.mem := by
  unfold hostWrite at h
  split at h
  · injection h with h
    rw [h]
  · exact (issueWord_next_effect h).mem
  · injection h with h
    rw [← h]
    split
    · rfl
    · exact writeRegister_mem _ d s

/-- Of the host's operations only its own write of a byte changes memory. -/
theorem hostOp_next_mem {op : HostOp} {s t : State} (h : hostOp op s = .next t) :
    (∃ addr b, op = .memWr addr b ∧ t.mem = s.mem.write addr.toNat b) ∨ t.mem = s.mem := by
  cases op with
  | rd off size =>
    obtain ⟨-, hk⟩ := registerAccess_next h
    injection hk with hk
    exact .inr (by rw [← hk]; rfl)
  | wr off size d =>
    obtain ⟨-, hk⟩ := registerAccess_next h
    exact .inr (hostWrite_next_mem hk)
  | poll off lo width v =>
    obtain ⟨-, hk⟩ := registerAccess_next h
    unfold hostPoll at hk
    right
    split at hk
    · injection hk with hk
      rw [← hk]; rfl
    · injection hk with hk
      rw [← hk]; rfl
  | memRd addr =>
    by_cases hout : racesOutput s addr.toNat = true
    · rw [hostOp_memRd_race hout] at h
      cases h
    · rw [hostOp_memRd_performs hout] at h
      injection h with h
      exact .inr (by rw [← h])
  | memWr addr b =>
    by_cases hin : racesInput s addr.toNat = true
    · rw [hostOp_memWr_raceInput hin] at h
      cases h
    · by_cases hout : racesOutput s addr.toNat = true
      · rw [hostOp_memWr_raceOutput hin hout] at h
        cases h
      · rw [hostOp_memWr_performs hin hout] at h
        injection h with h
        exact .inl ⟨addr, b, rfl, by rw [← h]⟩
  | reset =>
    injection h with h
    exact .inr (by rw [← h]; rfl)

/-- Settles O53: a unit of SEQ writes within the output, and the host writes only the byte it names. -/
theorem memoryChangesOnlyInTheOutputOrByTheHost : Obligations.MemoryChangesOnlyInTheOutputOrByTheHost := by
  intro s t hi h a hne
  rcases step_next_cases h with ⟨ts, ops, he⟩ | ⟨ts, rfl⟩ | ⟨op, ts, ops, hop, ho⟩
  · obtain ⟨hb, hfrom, hto, hle⟩ := he.changed_byte (hi.withSchedule ts ops) hne
    simp only [State.withSchedule] at hb hfrom hto hle
    exact .inl ⟨hb, inOutputRange_iff.2 ⟨by omega, by omega⟩⟩
  · exact absurd rfl hne
  · rcases hostOp_next_mem ho with ⟨addr, b, rfl, hm⟩ | hm
    · refine .inr ⟨addr, b, ops, hop, ?_⟩
      by_contra ha
      exact hne (by rw [hm]; exact Memory.read_write_other s.mem b ha)
    · exact absurd (by rw [hm]; rfl) hne

end Sys2Proof.Machine
end

section
/-! PROOFS. The encoding and the host's turn: `decode` as the inverse of `encode` in each build, the step that performs
the host's next operation, the placed command, and the accesses and polls of the register port. -/

namespace Sys2Proof.Machine

open Sys2Proof

/-! ### The opcode map -/

/-- The encoding laws of the eight commands, as one fact about every command. -/
theorem encoding_laws (i : Instr) : Laws.Encoding.Statement i := by
  cases i with
  | nop => exact Laws.Encoding.nop
  | clr => exact Laws.Encoding.clr
  | step1 => exact Laws.Encoding.step1
  | step4 => exact Laws.Encoding.step4
  | cvt1 => exact Laws.Encoding.cvt1
  | cvt4 => exact Laws.Encoding.cvt4
  | run1 => exact Laws.Encoding.run1
  | run4 => exact Laws.Encoding.run4

theorem decode_encode {vec : Bool} {i : Instr} (h : i.wellFormed vec = true) : decode vec (encode i) = .ok i := by
  obtain ⟨hdec, -, -, -⟩ := encoding_laws i
  exact hdec vec h

/-- The opcode field is a left inverse of `encode`. -/
theorem opcodeInstr_encode (i : Instr) : opcodeInstr (opField (encode i)) = some i := by
  obtain ⟨-, -, hop, -⟩ := encoding_laws i
  exact hop

theorem encode_injective {i j : Instr} (h : encode i = encode j) : i = j := by
  have : some i = some j := by rw [← opcodeInstr_encode i, h, opcodeInstr_encode j]
  exact Option.some.inj this

/-- What decodes is a command the build has (30_encoding R83). -/
theorem wellFormed_of_decode {vec : Bool} {w : Word} {i : Instr} (h : decode vec w = .ok i) :
    i.wellFormed vec = true := by
  unfold decode at h
  split at h
  · cases h
  · split at h
    · cases h
    · split at h
      · rename_i hwf
        injection h with h
        exact h ▸ hwf
      · cases h

theorem decode_eq_ok_iff {vec : Bool} {w : Word} {i : Instr} :
    decode vec w = .ok i ↔ w = encode i ∧ i.wellFormed vec = true := by
  constructor
  · exact fun h => ⟨eq_encode_of_decode h, wellFormed_of_decode h⟩
  · rintro ⟨rfl, h⟩
    exact decode_encode h

/-- Only the 4-wide commands need `VEC_PRESENT = 1` (30_encoding R82). -/
theorem wellFormed_iff {vec : Bool} {i : Instr} :
    i.wellFormed vec = true ↔ (i = .step4 ∨ i = .cvt4 ∨ i = .run4 → vec = true) := by
  cases i <;> simp [Instr.wellFormed]

/-- Settles O2: a word decodes exactly to the command it encodes, in the builds that have that command. -/
theorem decodeAcceptsExactlyTheOpcodeMap : Obligations.DecodeAcceptsExactlyTheOpcodeMap :=
  ⟨⟨rfl, rfl, rfl, rfl, rfl, rfl, rfl, rfl⟩, fun _ _ _ => decode_eq_ok_iff.trans (and_congr_right' wellFormed_iff)⟩

/-- Settles O1: the eight words are the eight match values, and this build has every command. -/
theorem opcodeWordsDecodeToTheirCommands : Obligations.OpcodeWordsDecodeToTheirCommands := by
  have dec (i : Instr) : decode true (encode i) = .ok i := decode_encode (wellFormed_iff.2 fun _ => rfl)
  exact ⟨dec .nop, dec .clr, dec .step1, dec .step4, dec .cvt1, dec .cvt4, dec .run1, dec .run4⟩

/-- Settles O3: each command's word decodes to it, and its opcode field names no other command. -/
theorem decodeOfEncodeIsTheCommand : Obligations.DecodeOfEncodeIsTheCommand :=
  ⟨fun _ _ h => decode_encode h, fun _ _ h => encode_injective h⟩

/-! ### The host's turn -/

theorem hostStep_nil {s : State} (h : s.hostProg = []) : hostStep s = .next s := by
  rw [hostStep, h]

theorem hostStep_cons {s : State} {op : HostOp} {ops : List HostOp} (h : s.hostProg = op :: ops) :
    hostStep s = hostOp op { s with hostProg := ops } := by
  rw [hostStep, h]

/-- A scheduled host turn is HOST's step, whatever BUSY is (log 13). -/
theorem step_hostTurn {s : State} {ts : List Agent} (h : s.turns = .host :: ts) :
    step s = hostStep { s with turns := ts } := by
  rw [step, agentStep, nextAgent, h]

/-- With no turn scheduled HOST moves while BUSY = 0 (log 13). -/
theorem step_idle {s : State} (ht : s.turns = []) (hb : s.status.busy = false) : step s = hostStep s := by
  simp [step, agentStep, nextAgent, ht, hb]

/-- Settles O6: at the host's turn the step is HOST's, and that is the operation at the head of its program. -/
theorem stepRunsTheHostsNextOperation : Obligations.StepRunsTheHostsNextOperation := by
  intro s
  refine ⟨fun op ops hp => ⟨fun ts ht => ?_, fun ht hb => ?_⟩, fun hp => ⟨fun ts ht => ?_, fun ht hb => ?_⟩⟩
  · exact (step_hostTurn ht).trans (hostStep_cons hp)
  · exact (step_idle ht hb).trans (hostStep_cons hp)
  · exact (step_hostTurn ht).trans (hostStep_nil hp)
  · exact (step_idle ht hb).trans (hostStep_nil hp)

/-! ### Commands the host issues -/

/-- A write to CMD of a word that decodes executes the command (30_encoding R85). -/
theorem hostOp_wr_cmd_of_decode {s : State} {w : Word} {i : Instr} (h : decode s.capVec w = .ok i) :
    hostOp (.wr Reg.cmd.offset 4 w) s = exec i s := by
  rw [hostOp_wr_cmd, issueWord, h]

/-- Settles O5: the host's next operation is performed, and a legal word written to CMD is its command's `exec`. -/
theorem stepRunsTheIssuedCommand : Obligations.StepRunsTheIssuedCommand := by
  intro s w i ops hd hp
  obtain ⟨hops, -⟩ := stepRunsTheHostsNextOperation s
  obtain ⟨hturn, hidle⟩ := hops _ _ hp
  exact ⟨fun ts ht => (hturn ts ht).trans (hostOp_wr_cmd_of_decode hd),
    fun ht hb => (hidle ht hb).trans (hostOp_wr_cmd_of_decode hd)⟩

theorem tableWord_toNat (w : Word) : tableWord 32 w.toNat = w := by
  rw [tableWord, Nat.mod_eq_of_lt w.isLt, BitVec.ofNat_toNat, BitVec.setWidth_eq]

/-- Settles O7: the placed write is the host's next operation, at a host turn of its own; both taken off, the state is
the one it was placed in. -/
theorem placedWordRunsNext : Obligations.PlacedWordRunsNext := by
  intro s w i hd
  rw [State.withFetchWord, tableWord_toNat]
  obtain ⟨hturn, -⟩ := stepRunsTheIssuedCommand (queueCommand w s) w i s.hostProg hd rfl
  exact hturn s.turns rfl

/-! ### Accesses and polls of the register port -/

/-- An access of another size or at a misaligned offset is refused, whatever it would do (30_encoding R84; log 7). -/
theorem registerAccess_refused {off : Byte} {size : Nat} (h : size ≠ 4 ∨ off.toNat % 4 ≠ 0) (k : State → Result)
    (s : State) : registerAccess off size k s = .refused (.registerAccessUndefined off size) := by
  have hd : ¬registerAccessDefined off size = true := by
    rw [registerAccessDefined, Bool.and_eq_true, beq_iff_eq, beq_iff_eq]
    omega
  rw [registerAccess, if_neg hd]

/-- Settles O45: what is no transaction is refused; a read is noted, and every write has an effect. -/
theorem onlyAlignedWordAccessesAreTransactions : Obligations.OnlyAlignedWordAccessesAreTransactions := by
  intro s off size d
  refine ⟨fun h => ⟨registerAccess_refused h _ s, registerAccess_refused h _ s⟩, fun hal => ⟨⟨_, hostOp_rd hal s⟩, ?_⟩⟩
  obtain ⟨t, ht, -⟩ := hostWrite_effect off d s
  exact ⟨t, (hostOp_wr hal d s).trans ht⟩

/-- What a register reads as does not depend on the host's program. -/
@[simp] theorem readOffset_hostProg (s : State) (ops : List HostOp) (off : Byte) :
    readOffset { s with hostProg := ops } off = readOffset s off := by
  unfold readOffset
  cases Reg.atOffset off with
  | none => rfl
  | some r => cases r <;> rfl

/-- A poll notes a read of its offset, and goes back to the head of the program unless the field has matched. -/
theorem hostPoll_eq (off : Byte) (lo width v : Nat) (s : State) :
    hostPoll off lo width v s = .next { noteRegRead off s with
      hostProg := if regField (readOffset s off) lo width = v then s.hostProg
        else .poll off lo width v :: s.hostProg } := by
  unfold hostPoll
  split <;> rfl

/-- Settles O46: the poll is taken off the program, and put back exactly when the field differs. -/
theorem pollRepeatsUntilTheFieldMatches : Obligations.PollRepeatsUntilTheFieldMatches := by
  intro s off lo width v ops hal hp
  rw [hostStep_cons hp, hp]
  refine (registerAccess_word hal _ _).trans ((hostPoll_eq off lo width v _).trans ?_)
  rw [noteRegRead, readOffset_hostProg]
  rfl

end Sys2Proof.Machine
end

section
/-! PROOFS. Rounding and addition: `round32` is nearest with ties to even (40_datapath R102), and `fadd` case by case
and on exact sums (R101, R103). -/

namespace Sys2Proof.Machine

open Sys2Proof

/-! ### The kind and the sign of a rounded value -/

theorem infOf_kind (neg : Bool) : isInf (infOf neg) = true ∧ signBit (infOf neg) = neg := by
  cases neg <;> decide

theorem round32_overflow {neg : Bool} {n sh : Nat} (h : roundMag n sh ≥ 2 ^ 277) : round32 neg n sh = infOf neg := by
  rw [round32_eq, if_pos h]

@[simp] theorem signBit_round32 (neg : Bool) (n sh : Nat) : signBit (round32 neg n sh) = neg := by
  rcases Nat.lt_or_ge (roundMag n sh) (2 ^ 277) with h | h
  · obtain ⟨-, -, hsign⟩ := round32_finite (neg := neg) h
    exact hsign
  · rw [round32_overflow h, (infOf_kind neg).2]

@[simp] theorem isNaN_round32 (neg : Bool) (n sh : Nat) : isNaN (round32 neg n sh) = false := by
  rcases Nat.lt_or_ge (roundMag n sh) (2 ^ 277) with h | h
  · obtain ⟨hfin, -, -⟩ := round32_finite (neg := neg) h
    exact (not_inf_nan_of_finite hfin).2
  · rw [round32_overflow h]
    exact (isInf_not (infOf_kind neg).1).1

/-- `round32` answers an infinity exactly when the rounded magnitude is `2^128` or more (40_datapath R102 step 6). -/
theorem isInf_round32_iff (neg : Bool) (n sh : Nat) :
    isInf (round32 neg n sh) = true ↔ roundMag n sh ≥ 2 ^ 277 := by
  refine ⟨fun h => Nat.le_of_not_lt fun hlt => ?_, fun h => ?_⟩
  · obtain ⟨hfin, -, -⟩ := round32_finite (neg := neg) hlt
    rw [(isInf_not h).2] at hfin
    cases hfin
  · rw [round32_overflow h]
    exact (infOf_kind neg).1

theorem mag_round32 {neg : Bool} {n sh : Nat} (h : isFinite (round32 neg n sh) = true) :
    mag (round32 neg n sh) = roundMag n sh := by
  rcases Nat.lt_or_ge (roundMag n sh) (2 ^ 277) with hlt | hge
  · obtain ⟨-, hmag, -⟩ := round32_finite (neg := neg) hlt
    exact hmag
  · rw [← isInf_round32_iff neg, (not_inf_nan_of_finite h).1] at hge
    cases hge

/-! ### Distances, and the even fraction -/

/-- The distance of a finite pattern to a real of its own sign is the distance of the magnitudes. -/
theorem natAbs_val_sub_of_sign_eq {p : Word} {neg : Bool} (h : signBit p = neg) (n sh : Nat) :
    (val p * 2 ^ sh - if neg then -(n : Int) else n).natAbs = ((mag p * 2 ^ sh : Nat) - (n : Int)).natAbs := by
  unfold val
  rw [h]
  push_cast
  cases neg
  · simp
  · simp only [if_true, Int.neg_mul]
    omega

/-- The distance of a finite pattern to a real of the other sign is the sum of the magnitudes. -/
theorem natAbs_val_sub_of_sign_ne {p : Word} {neg : Bool} (h : signBit p ≠ neg) (n sh : Nat) :
    (val p * 2 ^ sh - if neg then -(n : Int) else n).natAbs = mag p * 2 ^ sh + n := by
  have hcast : ((mag p * 2 ^ sh : Nat) : Int) = mag p * 2 ^ sh := by push_cast; rfl
  unfold val
  rw [Bool.eq_not_of_ne h]
  cases neg
  · simp only [Bool.not_false, if_true, Int.neg_mul, Bool.false_eq_true, if_false]
    omega
  · simp only [Bool.not_true, if_true, Bool.false_eq_true, if_false]
    omega

/-- A pattern whose magnitude is an even number of units of any size, at most `2^24` of them, has an even fraction. -/
theorem fracField_even {p : Word} {q k : Nat} (h : mag p = q * 2 ^ k) (heven : q % 2 = 0) (hle : q ≤ 2 ^ 24) :
    fracField p % 2 = 0 := by
  obtain ⟨c, rfl⟩ : ∃ c, q = 2 * c := ⟨q / 2, by omega⟩
  unfold mag at h
  split at h
  · rw [h, Nat.mul_assoc]
    omega
  · rcases Nat.lt_or_ge k (expField p - 1) with hlt | hge
    · -- the unit of the pattern's last place is larger than that of `q`: only `q = 2^24` is left
      obtain ⟨j, hj⟩ : ∃ j, expField p - 1 = j + 1 + k := ⟨expField p - 2 - k, by omega⟩
      rw [hj, Nat.pow_add 2 (j + 1) k, ← Nat.mul_assoc] at h
      have hq := Nat.eq_of_mul_eq_mul_right (Nat.two_pow_pos k) h
      rw [Nat.pow_succ 2 j, ← Nat.mul_assoc] at hq
      have := Nat.le_mul_of_pos_right (2 ^ 23 + fracField p) (Nat.two_pow_pos j)
      omega
    · rw [← Nat.sub_add_cancel hge, Nat.pow_add, ← Nat.mul_assoc] at h
      have hq := Nat.eq_of_mul_eq_mul_right (Nat.two_pow_pos _) h
      rw [Nat.mul_assoc] at hq
      omega

/-- Settles O31: the magnitude is rounded to a nearest one of the grid, at a tie to an even count of units
(`roundMag_nearest`), and a pattern of the other sign is no nearer than zero, which is on the grid too. -/
theorem round32IsNearestTiesToEven : Obligations.Round32IsNearestTiesToEven := by
  intro neg n sh hn
  refine ⟨signBit_round32 neg n sh, isNaN_round32 neg n sh,
    (isInf_round32_iff neg n sh).trans (roundMag_ge_iff n sh), fun hfin p hp => ?_⟩
  have hmag := mag_round32 hfin
  have heven (h : roundHalfEven n (ulpShift n sh) % 2 = 0) : fracField (round32 neg n sh) % 2 = 0 :=
    fracField_even hmag h (roundHalfEven_le (Nat.le_of_lt (lt_ulp n sh)))
  rw [natAbs_val_sub_of_sign_eq (signBit_round32 neg n sh), hmag]
  by_cases hs : signBit p = neg
  · rw [natAbs_val_sub_of_sign_eq hs]
    obtain ⟨hnear, htie⟩ := roundMag_nearest n sh (isMag_mag hp).grid
    refine ⟨hnear, fun heq hne => heven (htie heq fun hm => hne ?_)⟩
    rw [val, val, hs, signBit_round32, hmag, hm]
  · rw [natAbs_val_sub_of_sign_ne hs]
    obtain ⟨hnear, htie⟩ := roundMag_nearest n sh isMag_zero.grid
    rw [Nat.zero_mul] at hnear htie
    refine ⟨by omega, fun heq hne => heven (htie (by omega) fun hm => hne ?_)⟩
    -- at a tie the pattern is itself a zero, and the result is not
    have hp0 : mag p * 2 ^ sh = 0 := by omega
    have hp0 : mag p = 0 := (Nat.mul_eq_zero.1 hp0).resolve_right (Nat.two_pow_pos sh).ne'
    simp [val, hmag, ← hm, hp0]

/-! ### Addition, case by case -/

theorem fadd_nan {a b : Word} (h : isNaN a = true ∨ isNaN b = true) : fadd a b = qNaN := by
  rw [fadd, if_pos (Bool.or_eq_true_iff.2 h)]

theorem fadd_opposite_inf {a b : Word} (ha : isInf a = true) (hb : isInf b = true) (hs : signBit a ≠ signBit b) :
    fadd a b = qNaN := by
  simp [fadd, (isInf_not ha).1, (isInf_not hb).1, ha, hb, hs]

theorem fadd_inf_self {a : Word} (ha : isInf a = true) : fadd a a = a := by
  simp [fadd, (isInf_not ha).1, ha]

theorem fadd_inf_finite {a b : Word} (ha : isInf a = true) (hb : isFinite b = true) : fadd a b = a := by
  obtain ⟨hbi, hbn⟩ := not_inf_nan_of_finite hb
  simp [fadd, (isInf_not ha).1, ha, hbi, hbn]

theorem fadd_finite_inf {a b : Word} (ha : isFinite a = true) (hb : isInf b = true) : fadd a b = b := by
  obtain ⟨hai, han⟩ := not_inf_nan_of_finite ha
  simp [fadd, (isInf_not hb).1, hb, hai, han]

theorem fadd_finite {a b : Word} (ha : isFinite a = true) (hb : isFinite b = true) :
    fadd a b = if val a + val b = 0 then (if a = negZero ∧ b = negZero then negZero else posZero)
      else round32 (decide (val a + val b < 0)) (val a + val b).natAbs 0 := by
  obtain ⟨hai, han⟩ := not_inf_nan_of_finite ha
  obtain ⟨hbi, hbn⟩ := not_inf_nan_of_finite hb
  simp [fadd, hai, han, hbi, hbn]

/-- Addition is commutative bit for bit (40_datapath R103). -/
theorem fadd_comm (a b : Word) : fadd a b = fadd b a := by
  rcases kinds a with ha | ha | ha
  · rw [fadd_nan (.inl ha), fadd_nan (.inr ha)]
  · rcases kinds b with hb | hb | hb
    · rw [fadd_nan (.inr hb), fadd_nan (.inl hb)]
    · by_cases hs : signBit a = signBit b
      · rw [inf_ext hs ha hb]
      · rw [fadd_opposite_inf ha hb hs, fadd_opposite_inf hb ha (Ne.symm hs)]
    · rw [fadd_inf_finite ha hb, fadd_finite_inf hb ha]
  · rcases kinds b with hb | hb | hb
    · rw [fadd_nan (.inr hb), fadd_nan (.inl hb)]
    · rw [fadd_finite_inf ha hb, fadd_inf_finite hb ha]
    · simp only [fadd_finite ha hb, fadd_finite hb ha, Int.add_comm, and_comm]

/-- 2^24 + 1.0 is a tie and rounds down to 2^24, so adding 1.0 twice adds nothing, and adding 2.0 does. -/
theorem fadd_not_assoc : ∃ a b c : Word, fadd (fadd a b) c ≠ fadd a (fadd b c) :=
  ⟨0x4B800000#32, one, one, by decide +kernel⟩

/-- Settles O32: the cases of `fadd` by the kinds of its operands. -/
theorem faddIsBinary32Addition : Obligations.FaddIsBinary32Addition := by
  refine ⟨fun a b => ⟨fadd_comm a b, fadd_nan, fadd_opposite_inf, fun ha hb => ?_, fun ha hb hz => ?_,
    fun ha hb hnz => ?_⟩, fadd_not_assoc, by decide +kernel⟩
  · rcases hb with hb | rfl
    · exact fadd_inf_finite ha hb
    · exact fadd_inf_self ha
  · exact (fadd_finite ha hb).trans (if_pos hz)
  · exact (fadd_finite ha hb).trans (if_neg hnz)

/-! ### Exact sums -/

/-- A pattern of the magnitude and the sign of an integer has its value. -/
theorem val_of_mag_sign {p : Word} {r : Int} (hm : mag p = r.natAbs) (hs : signBit p = decide (r < 0)) : val p = r := by
  rw [val, hm, hs]
  by_cases h : r < 0
  · rw [decide_eq_true h, if_pos rfl]
    omega
  · rw [decide_eq_false h, if_neg (by decide)]
    omega

/-- An exact sum is finite and has the value of the real sum (40_datapath R103). -/
theorem exactSum.fadd_val {a b : Word} (h : exactSum a b) :
    isFinite (fadd a b) = true ∧ val (fadd a b) = val a + val b := by
  obtain ⟨ha, hb, p, hp, hsum⟩ := h
  rw [fadd_finite ha hb]
  split
  case isTrue hz =>
    rw [hz]
    split <;> decide
  case isFalse _ =>
    rw [← hsum]
    have hmag : IsMag (val p).natAbs := natAbs_val p ▸ isMag_mag hp
    have hround : roundMag (val p).natAbs 0 = (val p).natAbs := by
      simpa using roundMag_exact (sh := 0) hmag
    have hlt : roundMag (val p).natAbs 0 < 2 ^ 277 := by rw [hround]; exact hmag.1
    obtain ⟨hfin, hm, hs⟩ := round32_finite (neg := decide (val p < 0)) hlt
    exact ⟨hfin, val_of_mag_sign (hm.trans hround) hs⟩

/-- The sum of two zeros or subnormals is a multiple of `2^-149` below `2^-125`: no bit of it is lost (R101). -/
theorem exactSum_of_subnormal {a b : Word} (ha : expField a = 0) (hb : expField b = 0) : exactSum a b := by
  have hma : (val a).natAbs < 2 ^ 23 := by rw [natAbs_val, mag, if_pos ha]; exact fracField_lt a
  have hmb : (val b).natAbs < 2 ^ 23 := by rw [natAbs_val, mag, if_pos hb]; exact fracField_lt b
  have hlt : (val a + val b).natAbs < 2 ^ 24 := by omega
  have hmag : IsMag (val a + val b).natAbs :=
    ⟨hlt.trans (Nat.pow_lt_pow_right (by decide) (by decide)), _, 0, hlt, by simp⟩
  obtain ⟨hfin, hm, hs⟩ := bits32_spec (decide (val a + val b < 0)) hmag
  exact ⟨isFinite_iff.2 (by omega), isFinite_iff.2 (by omega), _, hfin, val_of_mag_sign hm hs⟩

/-- Settles O33: rounding keeps a value that is a magnitude there is, and a sum of subnormals is one. -/
theorem exactSumsAreExact : Obligations.ExactSumsAreExact :=
  fun _ _ => ⟨exactSum.fadd_val, exactSum_of_subnormal⟩

end Sys2Proof.Machine
end

section
/-! PROOFS. The converter: the range of the scaled product and of its integer, saturation, full coverage, and
monotonicity (40_datapath R106 to R108, R115, R117). -/

namespace Sys2Proof.Machine

open Sys2Proof

/-! ### The scaled product -/

theorem isFinite_scaleOf (cfg : Cfg) : isFinite (scaleOf cfg) = true := by
  unfold scaleOf
  split <;> decide

/-- A magnitude of at most 1.0 times a finite `S` rounds to at most `S`. -/
theorem roundMag_mul_le {c s : Word} (hc : mag c ≤ 2 ^ 149) (hs : isFinite s = true) :
    roundMag (mag c * mag s) 149 ≤ mag s :=
  calc roundMag (mag c * mag s) 149
      ≤ roundMag (mag s * 2 ^ 149) 149 := roundMag_mono _ (by rw [Nat.mul_comm]; exact Nat.mul_le_mul_left _ hc)
    _ = mag s := roundMag_exact (isMag_mag hs)

/-- The product of a clamped magnitude is finite, nonnegative, and the rounded exact product (40_datapath R106). -/
theorem fmul_spec {c s : Word} (hc : mag c ≤ 2 ^ 149) (hs : isFinite s = true) :
    isFinite (fmul c s) = true ∧ signBit (fmul c s) = false ∧ mag (fmul c s) = roundMag (mag c * mag s) 149 := by
  unfold fmul
  split
  case isTrue h =>
    have hround : roundMag (mag posZero * mag s) 149 = 0 := by
      rw [show mag posZero = 0 by decide, Nat.zero_mul]
      simpa using roundMag_exact (sh := 149) isMag_zero
    rw [h, hround]
    decide
  case isFalse _ =>
    obtain ⟨hfin, hmag, hsign⟩ := round32_finite (neg := false)
      (Nat.lt_of_le_of_lt (roundMag_mul_le hc hs) (isMag_mag hs).1)
    exact ⟨hfin, hsign, hmag⟩

theorem fmul_le_scale {c s : Word} (hc : mag c ≤ 2 ^ 149) (hs : isFinite s = true) : mag (fmul c s) ≤ mag s := by
  obtain ⟨-, -, hmag⟩ := fmul_spec hc hs
  exact hmag ▸ roundMag_mul_le hc hs

/-- Multiplication by a scale is monotonic. -/
theorem fmul_mono {c c' s : Word} (h : mag c ≤ mag c') (hc' : mag c' ≤ 2 ^ 149) (hs : isFinite s = true) :
    mag (fmul c s) ≤ mag (fmul c' s) := by
  obtain ⟨-, -, hmag⟩ := fmul_spec (Nat.le_trans h hc') hs
  obtain ⟨-, -, hmag'⟩ := fmul_spec hc' hs
  rw [hmag, hmag']
  exact roundMag_mono 149 (Nat.mul_le_mul_right _ h)

theorem clamp_le_one (x : Word) : mag (clamp1 (fabs x)) ≤ 2 ^ 149 := by
  obtain ⟨-, -, hle, -, -⟩ := clamp_spec x
  exact hle

theorem scaled_le_scale (x : Word) (cfg : Cfg) : mag (scaled x cfg) ≤ mag (scaleOf cfg) :=
  fmul_le_scale (clamp_le_one x) (isFinite_scaleOf cfg)

/-! ### The integer -/

theorem cvtInt_trunc_le_round (p : Word) : cvtInt p false ≤ cvtInt p true :=
  le_roundHalfEven (Nat.div_mul_le_self (mag p) (2 ^ 149))

theorem cvtInt_round_le_trunc_succ (p : Word) : cvtInt p true ≤ cvtInt p false + 1 :=
  roundHalfEven_le (Nat.le_of_lt (Nat.lt_mul_of_div_lt (Nat.lt_succ_self _) (Nat.two_pow_pos 149)))

theorem cvtInt_scale_le : ∀ scale rnd : Bool, cvtInt (scaleOf ⟨scale, rnd⟩) true ≤ 256 := by decide +kernel

/-- Settles O34: rounding is monotonic and keeps the scale, so the product is at most `S`, and 255.5 rounds to 256. -/
theorem scaledProductAndIntegerRange : Obligations.ScaledProductAndIntegerRange := by
  intro x cfg
  obtain ⟨hfin, hsign, -⟩ := fmul_spec (clamp_le_one x) (isFinite_scaleOf cfg)
  exact ⟨hfin, hsign, scaled_le_scale x cfg, cvtInt_trunc_le_round _, cvtInt_round_le_trunc_succ _,
    Nat.le_trans (cvt_mono true (scaled_le_scale x cfg)) (cvtInt_scale_le cfg.scale cfg.rnd)⟩

/-! ### Saturation and full coverage -/

/-- At a clamped magnitude of 1.0 the integer is the scale's: above 255 only for 255.5 rounded. -/
theorem cvtInt_one_gt_iff : ∀ scale rnd : Bool,
    cvtInt (fmul one (scaleOf ⟨scale, rnd⟩)) rnd > 255 ↔ scale = true ∧ rnd = true := by decide +kernel

theorem cvtInt_one_ge : ∀ scale rnd : Bool,
    255 ≤ cvtInt (fmul one (scaleOf ⟨scale, rnd⟩)) rnd := by decide +kernel

/-- The largest pattern below 1.0, `1 - 2^-24`. -/
def belowOne : Word := 0x3F7FFFFF#32

theorem mag_belowOne : mag belowOne = (2 ^ 24 - 1) * 2 ^ 125 := by decide +kernel

/-- The vector `prev1` of 40_datapath R108: below 1.0 nothing saturates. -/
theorem cvtInt_belowOne_le : ∀ scale rnd : Bool,
    cvtInt (fmul belowOne (scaleOf ⟨scale, rnd⟩)) rnd ≤ 255 := by decide +kernel

/-- There is no magnitude between `1 - 2^-24` and 1.0. -/
theorem IsMag.le_belowOne {v : Nat} (h : IsMag v) (hlt : v < 2 ^ 149) : v ≤ mag belowOne := by
  obtain ⟨-, m, e, hm, rfl⟩ := h
  rw [mag_belowOne]
  rcases Nat.le_total e 125 with he | he
  · exact Nat.mul_le_mul (by omega) (Nat.pow_le_pow_right (by decide) he)
  · obtain ⟨k, rfl⟩ := Nat.exists_eq_add_of_le' he
    rw [Nat.pow_add 2 k, ← Nat.mul_assoc] at hlt ⊢
    have : m * 2 ^ k < 2 ^ 24 := Nat.lt_of_mul_lt_mul_right (show m * 2 ^ k * 2 ^ 125 < 2 ^ 24 * 2 ^ 125 from hlt)
    exact Nat.mul_le_mul_right _ (by omega)

/-- Settles O35: at 1.0 by evaluation of the four settings, and below 1.0 the integer is at most that of `1 - 2^-24`. -/
theorem saturationOnlyAtFullScale : Obligations.SaturationOnlyAtFullScale := by
  intro x cfg
  unfold scaled
  by_cases hc : clamp1 (fabs x) = one
  · rw [hc, cvtInt_one_gt_iff]
    simp
  · obtain ⟨hfin, -, hle, -, hone⟩ := clamp_spec x
    have hlt : mag (clamp1 (fabs x)) < 2 ^ 149 := Nat.lt_of_le_of_ne hle fun h => hc (hone h)
    have hmul := fmul_mono ((isMag_mag hfin).le_belowOne hlt) (by rw [mag_belowOne]; decide) (isFinite_scaleOf cfg)
    have hint := Nat.le_trans (cvt_mono cfg.rnd hmul) (cvtInt_belowOne_le cfg.scale cfg.rnd)
    simp only [hc, and_false, iff_false]
    omega

/-- What is a NaN, infinite or at least 1.0 in magnitude clamps to 1.0 (40_datapath R105). -/
theorem clamp_eq_one {y : Word} (h : (isFinite y = true ∧ mag y ≥ mag one) ∨ isInf y = true ∨ isNaN y = true) :
    clamp1 (fabs y) = one := by
  obtain ⟨hnan, hinf, -, hmag⟩ := fabs_kind y
  rw [clamp1, hnan, hinf, hmag]
  rcases h with ⟨-, hge⟩ | h | h
  · rw [if_neg (Nat.not_lt.2 hge), ite_self, ite_self]
  · rw [h, if_pos rfl, ite_self]
  · rw [h, if_pos rfl]

/-- Settles O36: the clamped magnitude is 1.0, whose product is the scale. -/
theorem fullCoverageIsByte255 : Obligations.FullCoverageIsByte255 := by
  intro y cfg h
  apply BitVec.eq_of_toNat_eq
  rw [conv8_toNat, scaled, clamp_eq_one h, Nat.min_eq_right (cvtInt_one_ge cfg.scale cfg.rnd)]
  rfl

/-! ### Monotonicity -/

/-- The clamp is monotonic in the magnitude, off the NaNs. -/
theorem clamp_mono {x x' : Word} (hx : isNaN x = false) (hx' : isNaN x' = false) (h : mag x ≤ mag x') :
    mag (clamp1 (fabs x)) ≤ mag (clamp1 (fabs x')) := by
  obtain ⟨-, -, -, hc, -⟩ := clamp_spec x
  obtain ⟨-, -, -, hc', -⟩ := clamp_spec x'
  rw [hc hx, hc' hx']
  omega

/-- The converter is monotonic in the magnitude, off the NaNs: the clamp, the product and the conversion are. -/
theorem conv8_mono {x x' : Word} (cfg : Cfg) (hx : isNaN x = false) (hx' : isNaN x' = false) (h : mag x ≤ mag x') :
    (conv8 x cfg).toNat ≤ (conv8 x' cfg).toNat := by
  have hint := cvt_mono cfg.rnd (fmul_mono (clamp_mono hx hx' h) (clamp_le_one x') (isFinite_scaleOf cfg))
  rw [conv8_toNat, conv8_toNat]
  exact min_le_min_right 255 hint

/-- Settles O38: the two conversions are of one product, as CFG's RND does not enter it. -/
theorem converterIsMonotonic : Obligations.ConverterIsMonotonic := by
  refine ⟨fun x x' cfg hx hx' h => conv8_mono cfg hx hx' h, fun x scale => ?_⟩
  have hp : scaled x ⟨scale, true⟩ = scaled x ⟨scale, false⟩ := rfl
  simp only [conv8_toNat, hp]
  have hle := cvtInt_trunc_le_round (scaled x ⟨scale, false⟩)
  have hge := cvtInt_round_le_trunc_succ (scaled x ⟨scale, false⟩)
  omega

end Sys2Proof.Machine
end

section
/-! PROOFS. The running sums: an all-zero input on both paths (40_datapath R116), and the scalar and the 4-wide path
when no addition rounds (R114). -/

namespace Sys2Proof.Machine

open Sys2Proof

/-! ### Zeros -/

theorem isZero_posZero : isZero posZero := .inl rfl

theorem isZero.fadd {a b : Word} (ha : isZero a) (hb : isZero b) : isZero (fadd a b) := by
  rcases ha with rfl | rfl <;> rcases hb with rfl | rfl <;> unfold isZero <;> decide

theorem conv8_posZero : ∀ scale rnd : Bool, conv8 posZero ⟨scale, rnd⟩ = 0#8 := by decide

/-- The converter drops the sign, so both zeros convert as `+0.0` does. -/
theorem isZero.conv8 {p : Word} (h : isZero p) (cfg : Cfg) : conv8 p cfg = 0#8 := by
  rcases h with rfl | rfl <;> exact conv8_posZero cfg.scale cfg.rnd

/-- What holds of the four lanes holds of every lane. -/
theorem Lanes.forall_lane {P : Word → Prop} {v : Lanes} (h0 : P v.l0) (h1 : P v.l1) (h2 : P v.l2) (h3 : P v.l3)
    (i : Nat) : P (v.lane i) := by
  unfold Lanes.lane
  split <;> assumption

/-- A block of zeros with a zero carry scans to zeros: every addition of the three stages is of two zeros. -/
theorem scan4_isZero {v : Lanes} {off : Word} (hv : ∀ i, isZero (v.lane i)) (ho : isZero off) (i : Nat) :
    isZero ((scan4 v off).lane i) := by
  have stage1 : ∀ i, isZero ((scanStage1 v).lane i) := Lanes.forall_lane
    ((hv 0).fadd isZero_posZero) ((hv 1).fadd (hv 0)) ((hv 2).fadd (hv 1)) ((hv 3).fadd (hv 2))
  have stage2 : ∀ i, isZero ((scanStage2 (scanStage1 v)).lane i) := Lanes.forall_lane
    ((stage1 0).fadd isZero_posZero) ((stage1 1).fadd isZero_posZero)
    ((stage1 2).fadd (stage1 0)) ((stage1 3).fadd (stage1 1))
  exact Lanes.forall_lane ((stage2 0).fadd ho) ((stage2 1).fadd ho) ((stage2 2).fadd ho) ((stage2 3).fadd ho) i

section
variable {x : Nat → Word} (hx : ∀ k, isZero (x k))
include hx

theorem scalarSum_isZero (n : Nat) : isZero (scalarSum x n) := by
  induction n with
  | zero => exact isZero_posZero
  | succ n ih => exact ih.fadd (hx n)

theorem blockOf_isZero (b i : Nat) : isZero ((blockOf x b).lane i) :=
  Lanes.forall_lane (hx _) (hx _) (hx _) (hx _) i

theorem carryAfter_isZero (b : Nat) : isZero (carryAfter x b) := by
  induction b with
  | zero => exact isZero_posZero
  | succ b ih => exact scan4_isZero (blockOf_isZero hx b) ih 3

theorem scan4_block_isZero (b i : Nat) : isZero ((scan4 (blockOf x b) (carryAfter x b)).lane i) :=
  scan4_isZero (blockOf_isZero hx b) (carryAfter_isZero hx b) i

theorem tailSum_isZero (b j : Nat) : isZero (tailSum x b j) := by
  induction j with
  | zero => exact carryAfter_isZero hx b
  | succ j ih => exact ih.fadd (hx _)

theorem runningSum_isZero (kind : RunKind) (len k : Nat) : isZero (runningSum kind x len k) := by
  cases kind with
  | run1 => exact scalarSum_isZero hx (k + 1)
  | run4 =>
    rw [runningSum]
    split
    · exact scan4_block_isZero hx _ _
    · exact tailSum_isZero hx _ _

end

/-- Settles O37: by induction on the samples and on the blocks, as a sum of zeros is a zero. -/
theorem zeroInputGivesZeroOutput : Obligations.ZeroInputGivesZeroOutput := by
  intro x hx
  refine ⟨fun kind len k cfg => ?_, fun b i cfg => ?_⟩
  · have h := runningSum_isZero hx kind len k
    exact ⟨h, h.conv8 cfg⟩
  · have h := scan4_block_isZero hx b i
    exact ⟨h, h.conv8 cfg⟩

/-! ### Exact running sums -/

/-- The finite patterns of a value, in units of `2^-149`: one, or the two zeros. -/
def HasValue (p : Word) (r : Int) : Prop := isFinite p = true ∧ val p = r

theorem exactSum.hasValue {a b : Word} {r t : Int} (h : exactSum a b) (ha : val a = r) (hb : val b = t) :
    HasValue (fadd a b) (r + t) := by
  obtain ⟨hfin, hval⟩ := h.fadd_val
  exact ⟨hfin, by rw [hval, ha, hb]⟩

/-- The converter reads no more of a finite pattern than its value. -/
theorem HasValue.conv8_eq {p q : Word} {r : Int} (hp : HasValue p r) (hq : HasValue q r) (cfg : Cfg) :
    conv8 p cfg = conv8 q cfg := by
  obtain ⟨hpf, hpv⟩ := hp
  obtain ⟨hqf, hqv⟩ := hq
  obtain ⟨-, hpn⟩ := not_inf_nan_of_finite hpf
  obtain ⟨-, hqn⟩ := not_inf_nan_of_finite hqf
  have hmag : mag p = mag q := by rw [← natAbs_val, ← natAbs_val, hpv, hqv]
  exact BitVec.eq_of_toNat_eq
    (Nat.le_antisymm (conv8_mono cfg hpn hqn hmag.le) (conv8_mono cfg hqn hpn hmag.ge))

/-- The lanes `w` hold the real running sums of the block `v` from the carry `acc`. -/
structure Lanes.HoldRunningSums (w : Lanes) (acc : Word) (v : Lanes) : Prop where
  l0 : HasValue w.l0 (val acc + val v.l0)
  l1 : HasValue w.l1 (val acc + val v.l0 + val v.l1)
  l2 : HasValue w.l2 (val acc + val v.l0 + val v.l1 + val v.l2)
  l3 : HasValue w.l3 (val acc + val v.l0 + val v.l1 + val v.l2 + val v.l3)

/-- Lanes with the same running sums convert to the same bytes. -/
theorem Lanes.HoldRunningSums.convLanes_eq {w w' : Lanes} {acc : Word} {v : Lanes} (h : w.HoldRunningSums acc v)
    (h' : w'.HoldRunningSums acc v) (cfg : Cfg) : convLanes w cfg = convLanes w' cfg := by
  rw [convLanes, convLanes, h.l0.conv8_eq h'.l0, h.l1.conv8_eq h'.l1, h.l2.conv8_eq h'.l2, h.l3.conv8_eq h'.l3]

theorem step1Chain_holdRunningSums {acc : Word} {v : Lanes} (h : step1ChainExact acc v) :
    (step1Chain acc v).HoldRunningSums acc v := by
  obtain ⟨e0, e1, e2, e3⟩ := h
  have h0 := e0.hasValue rfl rfl
  have h1 := e1.hasValue h0.2 rfl
  have h2 := e2.hasValue h1.2 rfl
  exact ⟨h0, h1, h2, e3.hasValue h2.2 rfl⟩

/-- The scan sums lane `i` in another grouping, which exact sums do not show (40_datapath R110, R114). -/
theorem scan4_holdRunningSums {acc : Word} {v : Lanes} (h : step4Exact acc v) :
    (scan4 v acc).HoldRunningSums acc v := by
  obtain ⟨⟨a0, a1, a2, a3⟩, ⟨b0, b1, b2, b3⟩, ⟨c0, c1, c2, c3⟩⟩ := h
  have hz : val posZero = 0 := by decide
  have s1 := a1.hasValue rfl rfl
  have s0 := a0.hasValue rfl hz
  have t0 := b0.hasValue s0.2 hz
  have t1 := b1.hasValue s1.2 hz
  have t2 := b2.hasValue (a2.hasValue rfl rfl).2 s0.2
  have t3 := b3.hasValue (a3.hasValue rfl rfl).2 s1.2
  have regroup {p : Word} {r r' : Int} (hp : HasValue p r) (hr : r = r') : HasValue p r' := hr ▸ hp
  exact ⟨regroup (c0.hasValue t0.2 rfl) (by ring), regroup (c1.hasValue t1.2 rfl) (by ring),
    regroup (c2.hasValue t2.2 rfl) (by ring), regroup (c3.hasValue t3.2 rfl) (by ring)⟩

/-- The rule's DIV-1 (40_datapath R114): `2^24 + 1.0` rounds on both paths; the 4-wide one also adds `0.5` to `-2^24`,
where it is lost. -/
theorem div1_bytes : ∀ scale : Bool,
    let v : Lanes := ⟨0x4B800000#32, 0x3F800000#32, 0xCB800000#32, 0x3F000000#32⟩
    convLanes (step1Chain posZero v) ⟨scale, false⟩ = 0x7F00FFFF#32 ∧
    (step4 posZero v ⟨scale, false⟩).2.2 = 0x00FFFFFF#32 := by decide +kernel

/-- Settles O39: both paths hold the real running sums, which fix the bytes and the last value. -/
theorem scalarAndVectorAgreeWhenExact : Obligations.ScalarAndVectorAgreeWhenExact := by
  refine ⟨fun acc v cfg h1 h4 => ?_, div1_bytes⟩
  have hs := step1Chain_holdRunningSums h1
  have hv := scan4_holdRunningSums h4
  obtain ⟨hsf, hsv⟩ := hs.l3
  obtain ⟨hvf, hvv⟩ := hv.l3
  exact ⟨hv.convLanes_eq hs cfg, hvf, hsf, hvv.trans hsv.symm⟩

end Sys2Proof.Machine
end

section
/-! PROOFS. The register steps (41_register_commands R140 to R147): sums of opposite operands, the converter at full
coverage, the way of a NaN through the scan, the effect of each command, and what none of them touches. -/

namespace Sys2Proof.Machine

open Sys2Proof

/-! ### The accumulate-and-convert step -/

/-- Flipping bit 31 flips the sign and keeps the other fields (40_datapath R100). -/
theorem flipSign_fields (p : Word) :
    signBit (p ^^^ 0x80000000#32) = !signBit p ∧ expField (p ^^^ 0x80000000#32) = expField p ∧
      fracField (p ^^^ 0x80000000#32) = fracField p := by
  simp [signBit, expField, fracField, BitVec.extractLsb'_xor]

theorem val_flipSign (p : Word) : val (p ^^^ 0x80000000#32) = -val p := by
  obtain ⟨hs, he, hf⟩ := flipSign_fields p
  cases h : signBit p <;> simp [val, mag, hs, he, hf, h]

/-- A finite pattern and the one of the other sign cancel to `+0.0`, zeros too: they are not both `-0.0`. -/
theorem fadd_flipSign {p : Word} (h : isFinite p = true) : fadd p (p ^^^ 0x80000000#32) = posZero := by
  have h' : isFinite (p ^^^ 0x80000000#32) = true := by
    rw [isFinite, (flipSign_fields p).2.1]
    exact h
  have hnz : ¬(p = negZero ∧ p ^^^ 0x80000000#32 = negZero) := by
    rintro ⟨rfl, h⟩
    exact absurd h (by decide)
  rw [fadd_finite h h', val_flipSign, Int.add_right_neg, if_pos rfl, if_neg hnz]

theorem step1_eq {a x r : Word} (h : fadd a x = r) (cfg : Cfg) : step1 a x cfg = (r, conv8 r cfg) := by
  rw [step1, h]

/-- The converter at full coverage (40_datapath R115), whatever kind the operand of a large magnitude is. -/
theorem conv8_full {x : Word} (h : isNaN x = true ∨ isInf x = true ∨ mag x ≥ mag one) (cfg : Cfg) :
    conv8 x cfg = 0xFF#8 := by
  refine fullCoverageIsByte255 x cfg ?_
  rcases kinds x with hx | hx | hx
  · exact .inr (.inr hx)
  · exact .inr (.inl hx)
  · obtain ⟨hinf, hnan⟩ := not_inf_nan_of_finite hx
    simpa [hinf, hnan, hx] using h

/-! ### A NaN in the scan -/

theorem isNaN_qNaN : isNaN qNaN = true := by decide

theorem isNaN_fadd {a b : Word} (h : isNaN a = true ∨ isNaN b = true) : isNaN (fadd a b) = true := by
  rw [fadd_nan h, isNaN_qNaN]

/-- The lanes `w` are `v` with each lane added to the one `d` lanes below, `+0.0` shifted in: a stage of the scan. -/
def AddsShifted (d : Nat) (v w : Lanes) : Prop :=
  ∀ i < 4, w.lane i = fadd (v.lane i) (if i < d then posZero else v.lane (i - d))

theorem scanStage1_addsShifted (v : Lanes) : AddsShifted 1 v (scanStage1 v) := by
  intro i hi
  interval_cases i <;> rfl

theorem scanStage2_addsShifted (v : Lanes) : AddsShifted 2 v (scanStage2 v) := by
  intro i hi
  interval_cases i <;> rfl

theorem scan4_lane (v : Lanes) (off : Word) {i : Nat} (hi : i < 4) :
    (scan4 v off).lane i = fadd ((scanStage2 (scanStage1 v)).lane i) off := by
  interval_cases i <;> rfl

/-- A stage leaves a NaN in its lane, and brings it `d` lanes up. -/
theorem AddsShifted.isNaN {d : Nat} {v w : Lanes} (hw : AddsShifted d v w) {j i : Nat} (hij : i = j ∨ i = j + d)
    (hi : i < 4) (h : isNaN (v.lane j) = true) : isNaN (w.lane i) = true := by
  rw [hw i hi]
  rcases hij with rfl | rfl
  · exact isNaN_fadd (.inl h)
  · exact isNaN_fadd (.inr (by simpa using h))

/-- A NaN reaches every lane from its own on: a distance of 0 to 3 lanes is one shift of stage 1 or none, and then one
of stage 2 or none. -/
theorem scan4_nan_lane {v : Lanes} {off : Word} {j i : Nat} (hji : j ≤ i) (hi : i < 4) (h : isNaN (v.lane j) = true) :
    (scan4 v off).lane i = qNaN := by
  obtain ⟨m, hm1, hm, hm2⟩ : ∃ m, (m = j ∨ m = j + 1) ∧ m < 4 ∧ (i = m ∨ i = m + 2) :=
    ⟨j + (i - j) % 2, by omega, by omega, by omega⟩
  rw [scan4_lane v off hi]
  have hstage1 := (scanStage1_addsShifted v).isNaN hm1 hm h
  exact fadd_nan (.inl ((scanStage2_addsShifted _).isNaN hm2 hi hstage1))

/-! ### The commands -/

/-- Settles O10: the guard of an idle command, and the first check of `decode`. -/
theorem nopChangesNothing : Obligations.NopChangesNothing :=
  ⟨rfl, fun _ hb => exec_nop hb, fun _ _ _ hrsv => if_pos hrsv⟩

/-- Settles O11: ACC is written, not read. -/
theorem clrZeroesTheAccumulator : Obligations.ClrZeroesTheAccumulator :=
  ⟨rfl, fun _ hb => exec_clr hb⟩

/-- Settles O12: each corner case is one sum (40_datapath R103) and the byte of its kind. -/
theorem step1AccumulatesAndConverts : Obligations.Step1AccumulatesAndConverts := by
  refine ⟨rfl, fun s hb => ?effect, fun cfg => ?oppositeInf, fun cfg => ?overflow, fun cfg => ?negZeros,
    fun cfg => ?mixedZeros, fun acc x cfg hx => ?nan, fun acc x cfg hacc hx => ?cancel, by decide +kernel⟩
  case effect => rw [exec_step1 hb, setWidth_byte]; rfl
  case oppositeInf => rw [step1_eq (r := qNaN) (by decide), conv8_full (.inl isNaN_qNaN)]; rfl
  case overflow => rw [step1_eq (r := posInf) (by decide +kernel), conv8_full (.inr (.inl (by decide)))]; rfl
  case negZeros => rw [step1_eq (r := negZero) (by decide), isZero.conv8 (.inr rfl)]; rfl
  case mixedZeros => exact congrArg Prod.fst (step1_eq (r := posZero) (by decide) cfg)
  case nan => exact fadd_nan (.inr hx)
  case cancel => subst hx; exact fadd_flipSign hacc

theorem step4_zeros : ∀ scale rnd : Bool,
    step4 posZero ⟨posZero, posZero, posZero, posZero⟩ ⟨scale, rnd⟩ =
      (posZero, ⟨posZero, posZero, posZero, posZero⟩, 0x00000000#32) := by decide

/-- Settles O13: the NaN cases are `scan4_nan_lane`, and ACC is lane 3. -/
theorem step4ScansFourLanes : Obligations.Step4ScansFourLanes := by
  refine ⟨rfl, fun s hb hv => exec_step4 hb hv, fun s hb hv => exec_vectorAbsent hb hv (.inl rfl),
    fun cfg => step4_zeros cfg.scale cfg.rnd, fun v acc cfg j i hji hi hv => ?nanLane,
    fun v acc i hi hacc => ?nanCarry, fun v hv => ?negZero, by decide +kernel⟩
  case nanLane =>
    have hlane := scan4_nan_lane (off := acc) hji hi hv
    exact ⟨hlane, scan4_nan_lane (i := 3) (by omega) (by omega) hv, hlane ▸ conv8_full (.inl isNaN_qNaN) cfg⟩
  case nanCarry =>
    rw [scan4_lane v acc hi]
    exact fadd_nan (.inr hacc)
  case negZero =>
    show fadd v.l0 posZero = posZero
    rw [hv]
    decide

theorem conv8_smallestSubnormal : ∀ scale rnd : Bool, conv8 0x00000001#32 ⟨scale, rnd⟩ = 0x00#8 := by decide +kernel

/-- Settles O14: full coverage and zeros by the converter's laws, the rule's vectors by evaluation. -/
theorem cvt1ConvertsOneLane : Obligations.Cvt1ConvertsOneLane := by
  refine ⟨rfl, fun s hb => ?effect, fun x cfg hx => conv8_full hx cfg, fun x cfg hx => ?zeros, by decide +kernel⟩
  case effect => rw [exec_cvt1 hb, setWidth_byte]
  case zeros =>
    rcases hx with rfl | rfl | rfl
    · exact isZero.conv8 (.inl rfl) cfg
    · exact isZero.conv8 (.inr rfl) cfg
    · exact conv8_smallestSubnormal cfg.scale cfg.rnd

/-- Settles O15: the packed conversion in the build that has it, ILLEGAL in the other. -/
theorem cvt4ConvertsFourLanes : Obligations.Cvt4ConvertsFourLanes :=
  ⟨rfl, fun _ hb hv => exec_cvt4 hb hv, fun _ hb hv => exec_vectorAbsent hb hv (.inr (.inl rfl)), by decide +kernel⟩

/-- Settles O16: the effect of each command writes ACC, PFX and XOUT only, or latches ILLEGAL. -/
theorem registerStepsFrame : Obligations.RegisterStepsFrame := by
  intro i s h1 h4 hb
  cases i with
  | nop => exact ⟨_, exec_nop hb, by simp [hb]⟩
  | clr => exact ⟨_, exec_clr hb, by simp [hb]⟩
  | step1 => exact ⟨_, exec_step1 hb, by simp [hb]⟩
  | cvt1 => exact ⟨_, exec_cvt1 hb, by simp [hb]⟩
  | run1 => exact absurd rfl h1
  | run4 => exact absurd rfl h4
  | step4 =>
    cases hv : s.capVec with
    | true => exact ⟨_, exec_step4 hb hv, by simp [hb]⟩
    | false => exact ⟨_, exec_vectorAbsent hb hv (.inl rfl), by simp [hb]⟩
  | cvt4 =>
    cases hv : s.capVec with
    | true => exact ⟨_, exec_cvt4 hb hv, by simp [hb]⟩
    | false => exact ⟨_, exec_vectorAbsent hb hv (.inr (.inl rfl)), by simp [hb]⟩

/-! ### STEP1 repeated -/

theorem issueMany_succ {i : Instr} {s t : State} (h : exec i s = .next t) (k : Nat) :
    issueMany i (k + 1) s = issueMany i k t := by
  rw [issueMany, h]

/-- From the sum of the first `j` copies of XIN0, `k` issues of STEP1 lead to the sum of the first `j + k`. -/
theorem issueMany_step1 (k : Nat) : ∀ {s : State} {j : Nat}, s.status.busy = false →
    s.acc = scalarSum (fun _ => s.xin.l0) j →
    ∃ t, issueMany .step1 k s = .next t ∧ t.acc = scalarSum (fun _ => s.xin.l0) (j + k) ∧ t.xin = s.xin := by
  induction k with
  | zero => exact fun {s j} _ hacc => ⟨s, rfl, hacc, rfl⟩
  | succ k ih =>
    intro s j hb hacc
    have hsum : fadd s.acc s.xin.l0 = scalarSum (fun _ => s.xin.l0) (j + 1) := by rw [hacc, scalarSum]
    rw [issueMany_succ (exec_step1 hb), Nat.add_comm k 1, ← Nat.add_assoc]
    exact ih hb hsum

/-- Settles O18: `+0.0` is the sum of no copies. -/
theorem repeatedStep1SumsLeftToRight : Obligations.RepeatedStep1SumsLeftToRight := by
  intro k s hb hacc
  simpa using issueMany_step1 k (j := 0) hb hacc

end Sys2Proof.Machine
end

section
/-! PROOFS. The running sums (42_stream_commands R170): they depend on the input within LEN only, and each is one addition
or one scan on from what ACC holds before it (R182). -/

namespace Sys2Proof.Machine

open Sys2Proof

/-! ### Inputs that agree -/

section
variable {x y : Nat → Word}

theorem scalarSum_congr {n : Nat} (h : ∀ k < n, x k = y k) : scalarSum x n = scalarSum y n := by
  induction n with
  | zero => rfl
  | succ n ih => rw [scalarSum, scalarSum, ih fun k hk => h k (by omega), h n (by omega)]

theorem blockOf_congr {b : Nat} (h : ∀ k < 4 * b + 4, x k = y k) : blockOf x b = blockOf y b := by
  simp only [blockOf, Lanes.mk.injEq]
  exact ⟨h _ (by omega), h _ (by omega), h _ (by omega), h _ (by omega)⟩

theorem carryAfter_congr {b : Nat} (h : ∀ k < 4 * b, x k = y k) : carryAfter x b = carryAfter y b := by
  induction b with
  | zero => rfl
  | succ b ih =>
    rw [carryAfter, carryAfter, ih fun k hk => h k (by omega), blockOf_congr fun k hk => h k (by omega)]

theorem tailSum_congr {b j : Nat} (h : ∀ k < 4 * b + j, x k = y k) : tailSum x b j = tailSum y b j := by
  induction j with
  | zero => exact carryAfter_congr h
  | succ j ih => rw [tailSum, tailSum, ih fun k hk => h k (by omega), h (4 * b + j) (by omega)]

/-- A running sum of a run reads the run's elements only. -/
theorem runningSum_congr (kind : RunKind) {len k : Nat} (h : ∀ j < len, x j = y j) (hk : k < len) :
    runningSum kind x len k = runningSum kind y len k := by
  cases kind with
  | run1 => exact scalarSum_congr fun j hj => h j (by omega)
  | run4 =>
    rw [runningSum, runningSum]
    split
    · rw [blockOf_congr fun j hj => h j (by omega), carryAfter_congr fun j hj => h j (by omega)]
    · exact tailSum_congr fun j hj => h j (by omega)

theorem accAfter_congr (kind : RunKind) {len c : Nat} (h : ∀ j < len, x j = y j) (hc : c ≤ len) :
    accAfter kind x len c = accAfter kind y len c := by
  cases c with
  | zero => rfl
  | succ k => exact runningSum_congr kind h hc

end

/-! ### One unit on -/

theorem accAfter_run1 (x : Nat → Word) (len c : Nat) : accAfter .run1 x len c = scalarSum x c := by
  cases c <;> rfl

theorem runningSum_block (x : Nat → Word) {len b i : Nat} (hb : 4 * b + 4 ≤ len) (hi : i < 4) :
    runningSum .run4 x len (4 * b + i) = (scan4 (blockOf x b) (carryAfter x b)).lane i := by
  rw [runningSum, if_pos (by omega), show (4 * b + i) / 4 = b by omega, show (4 * b + i) % 4 = i by omega]

/-- Between blocks ACC is the carry (40_datapath R111). -/
theorem accAfter_block (x : Nat → Word) {len b : Nat} (hb : 4 * b ≤ len) :
    accAfter .run4 x len (4 * b) = carryAfter x b := by
  cases b with
  | zero => rfl
  | succ b => exact runningSum_block x hb (i := 3) (by decide)

/-- In the tail ACC is the scalar sum that goes on from the last carry. -/
theorem accAfter_tail (x : Nat → Word) {len c : Nat} (hc : 4 * (len / 4) ≤ c) :
    accAfter .run4 x len c = tailSum x (len / 4) (c - 4 * (len / 4)) := by
  rcases Nat.eq_or_lt_of_le hc with rfl | hlt
  · rw [accAfter_block x (by omega), Nat.sub_self, tailSum]
  · obtain ⟨k, rfl⟩ : ∃ k, c = k + 1 := ⟨c - 1, by omega⟩
    rw [accAfter, runningSum, if_neg (by omega)]

/-- Outside the blocks of a RUN4 a running sum is one addition on from ACC (42_stream R178). -/
theorem runningSum_scalar (x : Nat → Word) {kind : RunKind} {len k : Nat}
    (h : kind = .run4 → 4 * (len / 4) ≤ k) :
    runningSum kind x len k = fadd (accAfter kind x len k) (x k) := by
  cases kind with
  | run1 => rw [accAfter_run1]; rfl
  | run4 =>
    have hk := h rfl
    rw [accAfter_tail x hk, runningSum, if_neg (by omega),
      show k + 1 - 4 * (len / 4) = k - 4 * (len / 4) + 1 by omega, tailSum,
      show 4 * (len / 4) + (k - 4 * (len / 4)) = k by omega]

end Sys2Proof.Machine
end

section
/-! PROOFS. A unit of SEQ, scalar or block, as one function of the state, and what SEQ's step answers while samples
remain (42_stream_commands R177 to R181). -/

namespace Sys2Proof.Machine

open Sys2Proof

/-! ### The unit SEQ does next -/

/-- The next unit is a block unit (42_stream R177). -/
abbrev State.AtBlock (s : State) : Prop := s.rkind = .run4 ∧ s.pos.toNat + 4 ≤ s.len.toNat

/-- The number of samples of the next unit. -/
def State.unitLength (s : State) : Nat := if s.AtBlock then 4 else 1

/-- What the next unit computes for its sample `i` (42_stream R178, R179). -/
def State.unitSum (s : State) (i : Nat) : Word :=
  if s.AtBlock then
    (scan4 ⟨s.input s.pos.toNat, s.input (s.pos.toNat + 1), s.input (s.pos.toNat + 2), s.input (s.pos.toNat + 3)⟩
      s.acc).lane i
  else fadd s.acc (s.input s.pos.toNat)

/-- The output bytes of the next unit. -/
def State.unitBytes (s : State) : List Byte := (List.range s.unitLength).map fun i => conv8 (s.unitSum i) s.cfg

/-- The state after the next unit, both its requests answered. -/
def State.afterUnit (s : State) : State :=
  { s with
    acc := s.unitSum (s.unitLength - 1)
    mem := s.mem.writeBytes (outputAddr s s.pos.toNat) s.unitBytes
    pos := s.pos + BitVec.ofNat 32 s.unitLength }

/-- What the next unit leads to: a bus error of its read, one of its write, or the unit done (42_stream R178, R179, R181). -/
def State.unitOutcome (s : State) : State :=
  if busErrAt s.busErr (elementAddr s s.pos.toNat) (4 * s.unitLength) .read then
    endWithBusError (elementAddr s s.pos.toNat) .read s
  else if busErrAt s.busErr (outputAddr s s.pos.toNat) s.unitLength .write then
    endWithBusError (outputAddr s s.pos.toNat) .write s
  else s.afterUnit

theorem unitLength_block {s : State} (h : s.AtBlock) : s.unitLength = 4 := if_pos h
theorem unitLength_scalar {s : State} (h : ¬s.AtBlock) : s.unitLength = 1 := if_neg h

@[simp] theorem unitBytes_length (s : State) : s.unitBytes.length = s.unitLength := by
  simp [State.unitBytes]

theorem not_atBlock_iff {s : State} : ¬s.AtBlock ↔ s.rkind = .run1 ∨ s.len.toNat < s.pos.toNat + 4 := by
  cases h : s.rkind with
  | run1 => simp [State.AtBlock, h]
  | run4 => simp [State.AtBlock, h]

/-- The state after a scalar unit (42_stream R178). -/
theorem afterUnit_scalar {s : State} (h : ¬s.AtBlock) :
    s.afterUnit = { s with
      acc := fadd s.acc (s.input s.pos.toNat)
      mem := s.mem.writeBytes (outputAddr s s.pos.toNat) [conv8 (fadd s.acc (s.input s.pos.toNat)) s.cfg]
      pos := s.pos + 1 } := by
  simp [State.afterUnit, State.unitBytes, unitLength_scalar h, State.unitSum, if_neg h]

/-- The state after a block unit (42_stream R179). -/
theorem afterUnit_block {s : State} (h : s.AtBlock) :
    let w := scan4 ⟨s.input s.pos.toNat, s.input (s.pos.toNat + 1), s.input (s.pos.toNat + 2),
      s.input (s.pos.toNat + 3)⟩ s.acc
    s.afterUnit = { s with
      acc := w.l3
      mem := s.mem.writeBytes (outputAddr s s.pos.toNat)
        [conv8 w.l0 s.cfg, conv8 w.l1 s.cfg, conv8 w.l2 s.cfg, conv8 w.l3 s.cfg]
      pos := s.pos + 4 } := by
  simp [State.afterUnit, State.unitBytes, unitLength_block h, State.unitSum, if_pos h, List.range_succ, Lanes.lane]

/-! ### SEQ's step while samples remain -/

theorem ofNat_toNat_add (p : Word) (n : Nat) : BitVec.ofNat 32 (p.toNat + n) = p + BitVec.ofNat 32 n := by
  rw [BitVec.ofNat_add, BitVec.ofNat_toNat, BitVec.setWidth_eq]

theorem unitOutcome_readError {s : State}
    (hrd : busErrAt s.busErr (elementAddr s s.pos.toNat) (4 * s.unitLength) .read = true) :
    s.unitOutcome = endWithBusError (elementAddr s s.pos.toNat) .read s :=
  if_pos hrd

theorem unitOutcome_writeError {s : State}
    (hrd : busErrAt s.busErr (elementAddr s s.pos.toNat) (4 * s.unitLength) .read = false)
    (hwr : busErrAt s.busErr (outputAddr s s.pos.toNat) s.unitLength .write = true) :
    s.unitOutcome = endWithBusError (outputAddr s s.pos.toNat) .write s :=
  (if_neg (Bool.eq_false_iff.1 hrd)).trans (if_pos hwr)

theorem unitOutcome_done {s : State}
    (hrd : busErrAt s.busErr (elementAddr s s.pos.toNat) (4 * s.unitLength) .read = false)
    (hwr : busErrAt s.busErr (outputAddr s s.pos.toNat) s.unitLength .write = false) :
    s.unitOutcome = s.afterUnit :=
  (if_neg (Bool.eq_false_iff.1 hrd)).trans (if_neg (Bool.eq_false_iff.1 hwr))

/-- The scalar unit at POS, its requests of the port's forms, has its outcome. -/
theorem scalarUnit_eq {s : State} (h : ¬s.AtBlock) (hr : readAdmitted (elementAddr s s.pos.toNat) 4 = true)
    (hw : writeAdmitted (outputAddr s s.pos.toNat) 1 = true) :
    scalarUnit s.pos.toNat s = .next s.unitOutcome := by
  have hlen := unitLength_scalar h
  unfold scalarUnit
  cases hrd : busErrAt s.busErr (elementAddr s s.pos.toNat) 4 .read with
  | true => rw [memRead_busError hr hrd, unitOutcome_readError (by rw [hlen]; exact hrd)]
  | false =>
    rw [memRead_ok hr hrd]
    cases hwr : busErrAt s.busErr (outputAddr s s.pos.toNat) 1 .write with
    | true =>
      rw [unitOutcome_writeError (by rw [hlen]; exact hrd) (by rw [hlen]; exact hwr)]
      have hfail (b : Byte) : memWrite s (outputAddr s s.pos.toNat) [b] = .busError := memWrite_busError hw hwr
      simp only [hfail]
    | false =>
      rw [unitOutcome_done (by rw [hlen]; exact hrd) (by rw [hlen]; exact hwr), afterUnit_scalar h]
      have hdone (b : Byte) : memWrite s (outputAddr s s.pos.toNat) [b] =
          .ok (s.mem.writeBytes (outputAddr s s.pos.toNat) [b]) := memWrite_ok hw hwr
      simp only [hdone, ofNat_toNat_add]
      rfl

/-- The block unit that starts at POS, its requests of the port's forms, has its outcome. -/
theorem blockUnit_eq {s : State} {b : Nat} (h : s.AtBlock) (hb : 4 * b = s.pos.toNat)
    (hr : readAdmitted (blockAddr s b) 16 = true) (hw : writeAdmitted (outputAddr s (4 * b)) 4 = true) :
    blockUnit b s = .next s.unitOutcome := by
  have hlen := unitLength_block h
  have haddr : blockAddr s b = elementAddr s s.pos.toNat := by rw [blockAddr, elementAddr]; omega
  unfold blockUnit
  rw [haddr] at hr ⊢
  rw [hb] at hw ⊢
  cases hrd : busErrAt s.busErr (elementAddr s s.pos.toNat) 16 .read with
  | true => rw [memRead_busError hr hrd, unitOutcome_readError (by rw [hlen]; exact hrd)]
  | false =>
    rw [memRead_ok hr hrd]
    cases hwr : busErrAt s.busErr (outputAddr s s.pos.toNat) 4 .write with
    | true =>
      rw [unitOutcome_writeError (by rw [hlen]; exact hrd) (by rw [hlen]; exact hwr)]
      have hfail (v : Word) : memWrite s (outputAddr s s.pos.toNat) (wordBytes v) = .busError :=
        memWrite_busError hw hwr
      simp only [hfail]
    | false =>
      rw [unitOutcome_done (by rw [hlen]; exact hrd) (by rw [hlen]; exact hwr), afterUnit_block h]
      have hdone (v : Word) : memWrite s (outputAddr s s.pos.toNat) (wordBytes v) =
          .ok (s.mem.writeBytes (outputAddr s s.pos.toNat) (wordBytes v)) := memWrite_ok hw hwr
      simp only [hdone]
      simp only [elementAddr, lanesOfBytes_readBytes, step4, convLanes, wordBytes_pack4, ofNat_toNat_add]
      rfl

/-- While samples remain SEQ's step is the next unit, with its outcome. -/
theorem State.Inv.seqStep_unit {s : State} (hi : s.Inv) (hb : s.status.busy = true) (hp : s.pos ≠ s.len) :
    seqStep s = .next s.unitOutcome := by
  have hr := hi.runWellFormed hb
  by_cases hblock : s.AtBlock
  · obtain ⟨hkind, hfour⟩ := hblock
    have hge : s.len.toNat - s.pos.toNat ≥ 4 := by omega
    obtain ⟨hread, hwrite⟩ := hr.blockRequests hkind hge
    have hstart : 4 * (s.pos.toNat / 4) = s.pos.toNat := by
      have := hr.blocksStartAtFours hkind
      omega
    rw [seqStep_block hb hp hkind hge]
    exact blockUnit_eq ⟨hkind, hfour⟩ hstart hread hwrite
  · obtain ⟨hread, hwrite⟩ := hr.scalarRequests hp
    rw [seqStep_scalar hb hp ((not_atBlock_iff.1 hblock).imp_right (by omega))]
    exact scalarUnit_eq hblock hread hwrite

/-- A unit with both requests answered is done. -/
theorem State.Inv.seqStep_afterUnit {s : State} (hi : s.Inv) (hb : s.status.busy = true) (hp : s.pos ≠ s.len)
    (hrd : busErrAt s.busErr (elementAddr s s.pos.toNat) (4 * s.unitLength) .read = false)
    (hwr : busErrAt s.busErr (outputAddr s s.pos.toNat) s.unitLength .write = false) :
    seqStep s = .next s.afterUnit := by
  rw [hi.seqStep_unit hb hp, unitOutcome_done hrd hwr]

/-- A SEQ step after which the run goes on has done the next unit. -/
theorem State.Inv.eq_afterUnit {s t : State} (hi : s.Inv) (hb : s.status.busy = true) (h : seqStep s = .next t)
    (ht : t.status.busy = true) : s.pos ≠ s.len ∧ t = s.afterUnit := by
  have hp : s.pos ≠ s.len := by
    intro hp
    rw [seqStep_finish hb hp] at h
    injection h with h
    subst h
    cases ht
  refine ⟨hp, ?_⟩
  rw [hi.seqStep_unit hb hp] at h
  injection h with h
  subst h
  have ends (addr : Nat) (dir : Dir) : (endWithBusError addr dir s).status.busy ≠ true := by
    simp [(endWithBusError_ends addr dir s).1]
  unfold State.unitOutcome at ht ⊢
  split at ht
  · exact absurd ht (ends _ _)
  · rw [if_neg ‹_›]
    split at ht
    · exact absurd ht (ends _ _)
    · rw [if_neg ‹_›]

/-- STATUS at the end of a run by a bus error (42_stream R181, 60_exceptions R204). -/
theorem Status.latch_finish (e : ErrCode) (t : Status) :
    (t.latch e).finish =
      { t with busy := false, done := true, err := true, ecode := if t.err then t.ecode else e } := by
  rw [Status.finish, Status.latch_wign, Status.latch_err, Status.latch_ecode]

/-! ### The statements about one step -/

/-- Settles O22: no unit is left, so the step is the finish step. -/
theorem finishStepEndsTheRun : Obligations.FinishStepEndsTheRun :=
  fun _ hb hp => seqStep_finish hb hp

/-- Settles O23: the next unit is scalar, and both its requests are answered. -/
theorem scalarUnitProcessesOneSample : Obligations.ScalarUnitProcessesOneSample := by
  intro s hi hb hp hk hrd hwr
  have hscalar : ¬s.AtBlock := not_atBlock_iff.2 (hk.imp_right (by omega))
  have hlen := unitLength_scalar hscalar
  rw [hi.seqStep_afterUnit hb hp (by rw [hlen]; exact hrd) (by rw [hlen]; exact hwr), afterUnit_scalar hscalar]
  rfl

/-- Settles O24: the next unit is a block unit, and both its requests are answered. -/
theorem blockUnitProcessesFourSamples : Obligations.BlockUnitProcessesFourSamples := by
  intro s hi hb hk hfour hrd hwr
  have hblock : s.AtBlock := ⟨hk, hfour⟩
  have hlen := unitLength_block hblock
  have hp : s.pos ≠ s.len := fun hp => by rw [hp] at hfour; omega
  rw [hi.seqStep_afterUnit hb hp (by rw [hlen]; exact hrd) (by rw [hlen]; exact hwr), afterUnit_block hblock]
  rfl

/-- Settles O25: the unit's read is its first request and its write the second; the first that fails ends the run. -/
theorem busErrorEndsTheRun : Obligations.BusErrorEndsTheRun := by
  intro s hi hb hp
  refine ⟨fun hrd => ?_, fun hrd hwr => ?_⟩
  · rw [hi.seqStep_unit hb hp, unitOutcome_readError hrd, endWithBusError, Status.latch_finish]
    rfl
  · rw [hi.seqStep_unit hb hp, unitOutcome_writeError hrd hwr, endWithBusError, Status.latch_finish]
    rfl

end Sys2Proof.Machine
end

section
/-! PROOFS. The progress of a run (42_stream_commands R182): what the next unit computes are the next running sums, and
no step of either agent disturbs what has been done. -/

namespace Sys2Proof.Machine

open Sys2Proof

/-! ### What a unit moves -/

theorem unitLength_pos (s : State) : 0 < s.unitLength := by
  unfold State.unitLength
  split <;> decide

/-- The samples of the next unit are within LEN. -/
theorem State.RunWellFormed.unit_fits {s : State} (hr : s.RunWellFormed) (hp : s.pos ≠ s.len) :
    s.pos.toNat + s.unitLength ≤ s.len.toNat := by
  have hne : s.pos.toNat ≠ s.len.toNat := fun h => hp (BitVec.eq_of_toNat_eq h)
  have hle := hr.posInRange
  by_cases h : s.AtBlock
  · rw [unitLength_block h]; exact h.2
  · rw [unitLength_scalar h]; omega

theorem State.RunWellFormed.afterUnit_pos {s : State} (hr : s.RunWellFormed) (hp : s.pos ≠ s.len) :
    s.afterUnit.pos.toNat = s.pos.toNat + s.unitLength := by
  have hfit := hr.unit_fits hp
  have hlen := s.len.isLt
  simp only [State.afterUnit, ← ofNat_toNat_add, BitVec.toNat_ofNat]
  omega

/-- The next unit leaves every byte but its own output alone. -/
theorem afterUnit_read_other {s : State} {a : Nat}
    (h : a < outputAddr s s.pos.toNat ∨ outputAddr s s.pos.toNat + s.unitLength ≤ a) :
    s.afterUnit.mem.read a = s.mem.read a :=
  Memory.read_writeBytes_other s.mem s.unitBytes (by rwa [unitBytes_length])

/-- The next unit's own output. -/
theorem State.Inv.afterUnit_read {s : State} (hi : s.Inv) (hb : s.status.busy = true) (hp : s.pos ≠ s.len)
    {i : Nat} (h : i < s.unitLength) :
    s.afterUnit.mem.read (outputAddr s (s.pos.toNat + i)) = conv8 (s.unitSum i) s.cfg := by
  have hr := hi.runWellFormed hb
  have hfit := hr.unit_fits hp
  have hout := hr.outputFits
  have hread := Memory.read_writeBytes_at (a := outputAddr s s.pos.toNat) s.unitBytes hi.memCanonical
    (by rw [unitBytes_length]; unfold outputAddr Config.memSize; omega) (j := i) (by rwa [unitBytes_length])
  rw [State.afterUnit, show outputAddr s (s.pos.toNat + i) = outputAddr s s.pos.toNat + i by unfold outputAddr; omega,
    hread]
  simp [State.unitBytes]

/-- An element within LEN is the same in two memories that agree on the input. -/
theorem input_of_mem {s : State} {m : Memory} (h : ∀ a, inInputRange s a = true → m.read a = s.mem.read a) :
    ∀ k < s.len.toNat, elementAt m s.src.toNat k = s.input k :=
  fun k hk => elementAt_congr fun a hfrom hto => h a (inInputRange_iff.2 ⟨by omega, by omega⟩)

/-- The next unit leaves the input alone, as its output is elsewhere (42_stream R174). -/
theorem State.RunWellFormed.afterUnit_input {s : State} (hr : s.RunWellFormed) (hp : s.pos ≠ s.len) :
    ∀ k < s.len.toNat, s.afterUnit.input k = s.input k := by
  refine input_of_mem fun a ha => afterUnit_read_other ?_
  have hout := hr.buffersDisjoint a ha
  rw [Bool.eq_false_iff, Ne, inOutputRange_iff] at hout
  have hfit := hr.unit_fits hp
  unfold outputAddr
  omega

/-! ### Progress -/

/-- What the next unit computes are the next running sums (42_stream R170). -/
theorem State.Progress.unitSum_eq {s : State} (h : s.Progress) (hr : s.RunWellFormed) {i : Nat} (hlt : i < s.unitLength) :
    s.unitSum i = runningSum s.rkind s.input s.len.toNat (s.pos.toNat + i) := by
  obtain ⟨hacc, -⟩ := h
  by_cases hblock : s.AtBlock
  · obtain ⟨hkind, hfour⟩ := hblock
    rw [unitLength_block ⟨hkind, hfour⟩] at hlt
    obtain ⟨b, hb⟩ : ∃ b, s.pos.toNat = 4 * b := ⟨s.pos.toNat / 4, by have := hr.blocksStartAtFours hkind; omega⟩
    rw [hb] at hfour
    rw [hkind, hb, accAfter_block _ (by omega)] at hacc
    rw [State.unitSum, if_pos ⟨hkind, by omega⟩, hkind, hb, runningSum_block _ hfour hlt, hacc]
    rfl
  · have htail : s.rkind = .run4 → 4 * (s.len.toNat / 4) ≤ s.pos.toNat := fun hkind => by
      have hlast : ¬s.pos.toNat + 4 ≤ s.len.toNat := fun hge => hblock ⟨hkind, hge⟩
      have := hr.blocksStartAtFours hkind
      omega
    rw [unitLength_scalar hblock] at hlt
    obtain rfl : i = 0 := by omega
    rw [State.unitSum, if_neg hblock, Nat.add_zero, runningSum_scalar _ htail, hacc]

/-- A unit keeps the progress. -/
theorem State.Progress.afterUnit {s : State} (h : s.Progress) (hi : s.Inv) (hb : s.status.busy = true)
    (hp : s.pos ≠ s.len) : s.afterUnit.Progress := by
  have hr := hi.runWellFormed hb
  have hinput := hr.afterUnit_input hp
  have hfit := hr.unit_fits hp
  have hpos := unitLength_pos s
  have ⟨_, hbytes⟩ := h
  constructor
  · rw [hr.afterUnit_pos hp]
    change s.unitSum (s.unitLength - 1) = accAfter s.rkind s.afterUnit.input s.len.toNat _
    rw [accAfter_congr _ hinput hfit, h.unitSum_eq hr (by omega),
      show s.pos.toNat + s.unitLength = s.pos.toNat + (s.unitLength - 1) + 1 by omega, accAfter]
  · intro k hk
    rw [hr.afterUnit_pos hp] at hk
    change s.afterUnit.mem.read (outputAddr s k) = conv8 (runningSum s.rkind s.afterUnit.input s.len.toNat k) s.cfg
    rw [runningSum_congr _ hinput (by omega)]
    rcases Nat.lt_or_ge k s.pos.toNat with hlt | hge
    · rw [afterUnit_read_other (.inl (by unfold outputAddr; omega))]
      exact hbytes k hlt
    · obtain ⟨i, rfl⟩ : ∃ i, k = s.pos.toNat + i := ⟨k - s.pos.toNat, by omega⟩
      rw [hi.afterUnit_read hb hp (by omega), h.unitSum_eq hr (by omega)]

/-- The progress is about the buffers only: memory elsewhere may change. -/
theorem State.Progress.of_buffers_kept {s : State} {m : Memory} (h : s.Progress) (hr : s.RunWellFormed)
    (hin : ∀ a, inInputRange s a = true → m.read a = s.mem.read a)
    (hout : ∀ a, inOutputRange s a = true → m.read a = s.mem.read a) : State.Progress { s with mem := m } := by
  obtain ⟨hacc, hbytes⟩ := h
  have hinput := input_of_mem hin
  have hle := hr.posInRange
  refine ⟨hacc.trans (accAfter_congr _ hinput hle).symm, fun k (hk : k < s.pos.toNat) => ?_⟩
  have hbyte := hbytes k hk
  rw [← hout _ (inOutputRange_iff.2 ⟨by unfold outputAddr; omega, by unfold outputAddr; omega⟩),
    ← runningSum_congr _ hinput (by omega)] at hbyte
  exact hbyte

/-- An accepted command has nothing done, and ACC is `+0.0` (42_stream R175). -/
theorem acceptStream_progress (kind : RunKind) (s : State) : (acceptStream kind s).Progress :=
  ⟨rfl, fun k hk => absurd hk (Nat.not_lt_zero k)⟩

/-- A SEQ step after which the run goes on is a unit, which keeps the progress. -/
theorem seqStep_progress {s t : State} (hi : s.Inv) (h : s.status.busy = true → s.Progress)
    (hs : seqStep s = .next t) (ht : t.status.busy = true) : t.Progress := by
  have hb : s.status.busy = true := by
    by_contra hb
    rw [(seqStep_effect hs).not_raises_busy (by simpa using hb)] at ht
    cases ht
  obtain ⟨hp, rfl⟩ := hi.eq_afterUnit hb hs ht
  exact (h hb).afterUnit hi hb hp

/-- The host starts a run afresh, and does not touch what a run has done: while BUSY = 1 it writes neither the registers
nor the buffers. -/
theorem HostEffect.progress {s t : State} (h : HostEffect s t) (hi : s.Inv) (hs : s.status.busy = true → s.Progress)
    (ht : t.status.busy = true) : t.Progress := by
  cases h with
  | command hc =>
    cases hc with
    | ignored hb => exact hs hb
    | rejected e hb => simp [hb] at ht
    | accepted kind => exact acceptStream_progress kind s
    | registerStep a p x hb => simp [hb] at ht
  | status d => exact hs ht
  | register r d hr hb => simp [writeRegister_busy, hb] at ht
  | hostOnly => exact hs ht
  | memory addr b hin hout =>
    have hopen := hi.runOpen ht
    refine (hs ht).of_buffers_kept (hi.runWellFormed ht) (fun a ha => ?_) fun a ha => ?_
    · refine Memory.read_write_other _ b fun he => ?_
      rw [he, inInputRange_of_no_race hopen hin] at ha
      cases ha
    · refine Memory.read_write_other _ b fun he => ?_
      rw [he, inOutputRange_of_no_race hopen hout] at ha
      cases ha
  | reset => cases ht

/-- HOST's step keeps the progress of a run that it does not end. -/
theorem hostStep_progress {s t : State} (hi : s.Inv) (h : s.status.busy = true → s.Progress)
    (hs : hostStep s = .next t) (ht : t.status.busy = true) : t.Progress := by
  rcases hostStep_cases s with ⟨-, hn⟩ | ⟨op, ops, -, ho⟩
  · rw [hn] at hs
    injection hs with hs
    subst hs
    exact h ht
  · exact (hostOp_next_effect (ho.symm.trans hs)).progress (hi.withSchedule s.turns ops) h ht

/-- Settles O28: SEQ goes on only by a unit, and the host does not touch a run's registers and buffers. -/
theorem progressIsKeptByEveryStep : Obligations.ProgressIsKeptByEveryStep := by
  intro s t hi h hs ht
  rcases step_cases s with ⟨ts, -, he⟩ | ⟨ts, -, he⟩
  · exact seqStep_progress (hi.withSchedule ts s.hostProg) h (he.symm.trans hs) ht
  · exact hostStep_progress (hi.withSchedule ts s.hostProg) h (he.symm.trans hs) ht

end Sys2Proof.Machine
end

section
/-! PROOFS. Runs (42_stream_commands R170, R176, R185): a SEQ step moves POS on or ends the run, so a run ends; and a run
that meets no bus error is its units one after the other, which is the contract. -/

namespace Sys2Proof.Machine

open Sys2Proof

/-! ### Every step advances or ends the run -/

/-- A SEQ step of a run moves POS on, within LEN, or ends the run where it is (42_stream R177 to R181). -/
theorem SeqEffect.advances_or_ends {s t : State} (h : SeqEffect s t) (hi : s.Inv) (hb : s.status.busy = true) :
    (t.status.busy = true ∧ s.pos.toNat < t.pos.toNat ∧ t.pos.toNat ≤ s.len.toNat) ∨
      (t.status.busy = false ∧ t.status.done = true ∧ t.pos = s.pos) := by
  cases h with
  | idle hidle => simp [hb] at hidle
  | finish => exact .inr ⟨rfl, rfl, rfl⟩
  | busError addr dir =>
    obtain ⟨hbusy, hdone, -⟩ := endWithBusError_ends addr dir s
    exact .inr ⟨hbusy, hdone, rfl⟩
  | unit k bs a _ hp hk =>
    obtain ⟨hpos, hle, -⟩ := unit_pos (hi.runWellFormed hb) hp hk
    have hlen : 0 < bs.length := by omega
    rw [← hpos] at hle
    exact .inl ⟨hb, by rw [hpos]; omega, hle⟩

/-- SEQ's step takes nothing off the schedule. -/
theorem SeqEffect.turns {s t : State} (h : SeqEffect s t) : t.turns = s.turns := by
  cases h <;> rfl

theorem seqStep_idle {s : State} (hb : s.status.busy = false) : seqStep s = .next s := by
  simp [seqStep, hb]

/-- A scheduled SEQ turn is SEQ's step, whatever BUSY is (log 13). -/
theorem step_seqTurn {s : State} {ts : List Agent} (h : s.turns = .seq :: ts) :
    step s = seqStep { s with turns := ts } := by
  rw [step, agentStep, nextAgent, h]

/-- Settles O8: SEQ's step exists from the invariant, and is a unit or the end of the run. -/
theorem seqStepsExactlyWhileBusy : Obligations.SeqStepsExactlyWhileBusy := by
  intro s
  refine ⟨seqStep_idle, fun hb hi => ?_, step_busy, fun _ => step_seqTurn⟩
  obtain ⟨t, ht⟩ := hi.seqStep_next
  refine ⟨t, ht, ?_⟩
  rcases (seqStep_effect ht).advances_or_ends hi hb with ⟨-, hlt, -⟩ | ⟨hend, -⟩
  · exact .inl hlt
  · exact .inr hend

theorem stepMany_succ {s t : State} (h : step s = .next t) (n : Nat) : stepMany (n + 1) s = stepMany n t := by
  rw [stepMany, h]

/-- The end of a run from `m` samples before LEN, by induction on `m`: each step leaves fewer or ends the run. -/
theorem run_ends (m : Nat) : ∀ {s : State}, s.Inv → s.status.busy = true → s.turns = [] →
    s.len.toNat - s.pos.toNat = m →
    ∃ n ≤ m + 1, ∃ t, stepMany n s = .next t ∧ t.status.busy = false ∧ t.status.done = true ∧
      t.pos.toNat ≤ s.len.toNat := by
  induction m using Nat.strong_induction_on with
  | _ m ih =>
    intro s hi hb hturns hm
    obtain ⟨t, hseq⟩ := hi.seqStep_next
    have hstep : step s = .next t := (step_busy hturns hb).trans hseq
    have he := seqStep_effect hseq
    rcases he.advances_or_ends hi hb with ⟨hbusy, hlt, hle⟩ | ⟨hend, hdone, hpos⟩
    · obtain ⟨-, -, -, -, hlen, -⟩ := runOperands_eq_iff.1 he.runOperands
      obtain ⟨n, hn, u, hu, hend, hdone, hpos⟩ :=
        ih (t.len.toNat - t.pos.toNat) (by rw [hlen]; omega) (he.inv hi) hbusy (he.turns.trans hturns) rfl
      rw [hlen] at hn hpos
      exact ⟨n + 1, by omega, u, (stepMany_succ hstep n).trans hu, hend, hdone, hpos⟩
    · refine ⟨1, by omega, t, stepMany_succ hstep 0, hend, hdone, ?_⟩
      rw [hpos]
      exact (hi.runWellFormed hb).posInRange

/-- Settles O29: by induction on the samples left. -/
theorem runsAlwaysEnd : Obligations.RunsAlwaysEnd :=
  fun _ hi hb ht => run_ends _ hi hb ht rfl

/-! ### Acceptance -/

/-- A stream command that passes its checks is accepted (42_stream R175, R183, R184). -/
theorem exec_accepted {kind : RunKind} {s : State} (hb : s.status.busy = false)
    (hv : kind = .run4 → s.capVec = true) (hc : acceptCheck kind s = none) :
    exec kind.instr s = .next (acceptStream kind s) := by
  have haccept : issueStream kind s = acceptStream kind s := by rw [issueStream, hc]
  rw [← haccept]
  cases kind with
  | run1 => exact exec_run1 hb
  | run4 => exact exec_run4 hb (hv rfl)

/-- Settles O20: the premises are the acceptance checks. -/
theorem streamCommandsAreAccepted : Obligations.StreamCommandsAreAccepted := by
  intro kind s hb h1 h4 hin hout hdisj
  have halign : s.src.toNat % kind.alignment = 0 := by
    cases kind with
    | run1 => exact h1 rfl
    | run4 => exact (h4 rfl).1
  exact exec_accepted hb (fun hk => (h4 hk).2) (acceptCheck_eq_none.2 ⟨halign, hin, hout, hdisj⟩)

/-! ### The units of a run -/

/-- One unit is one of the steps left (42_stream R176). -/
theorem seqSteps_unit {s : State} (hr : s.RunWellFormed) (hp : s.pos ≠ s.len) :
    seqSteps s.rkind (s.len.toNat - s.pos.toNat) =
      seqSteps s.rkind (s.len.toNat - (s.pos.toNat + s.unitLength)) + 1 := by
  have hfit := hr.unit_fits hp
  by_cases hblock : s.AtBlock
  · obtain ⟨hkind, hfour⟩ := hblock
    rw [unitLength_block ⟨hkind, hfour⟩, hkind]
    simp only [seqSteps]
    omega
  · have hscalar := not_atBlock_iff.1 hblock
    rw [unitLength_scalar hblock] at hfit ⊢
    cases hkind : s.rkind with
    | run1 => simp only [seqSteps]; omega
    | run4 =>
      rw [hkind] at hscalar
      have hlast := hscalar.resolve_left (by decide)
      simp only [seqSteps]
      omega

/-- On a platform without bus errors in the buffers the next unit is done. -/
theorem State.Inv.step_afterUnit {s : State} (hi : s.Inv) (hb : s.status.busy = true) (ht : s.turns = [])
    (hn : s.noBusErrors) (hp : s.pos ≠ s.len) : step s = .next s.afterUnit := by
  have hfit := (hi.runWellFormed hb).unit_fits hp
  have hpos := unitLength_pos s
  rw [step_busy ht hb]
  refine hi.seqStep_afterUnit hb hp ((hn _ _).1 (inInputRange_iff.2 ?_)) ((hn _ _).2 (inOutputRange_iff.2 ?_))
  · unfold elementAddr; omega
  · unfold outputAddr; omega

/-- What a run of `s` leaves in memory: the conversions of its running sums in the output, and the rest as it was. -/
structure State.RunMemory (s : State) (m : Memory) : Prop where
  output : ∀ k < s.len.toNat,
    m.read (outputAddr s k) = conv8 (runningSum s.rkind s.input s.len.toNat k) s.cfg
  elsewhere : ∀ a, inOutputRange s a = false → m.read a = s.mem.read a

/-- The end of a run that meets no bus error: the last running sum in ACC, POS at LEN, memory `m`, and the finish step. -/
def State.runEnd (s : State) (m : Memory) : State :=
  finishRun { s with acc := accAfter s.rkind s.input s.len.toNat s.len.toNat, pos := s.len, mem := m }

/-- What the rest of a run leaves in memory after its next unit, the whole of it leaves from here. -/
theorem State.RunMemory.of_afterUnit {s : State} {m : Memory} (hr : s.RunWellFormed) (hp : s.pos ≠ s.len)
    (h : s.afterUnit.RunMemory m) : s.RunMemory m where
  output k hk := by
    rw [← runningSum_congr _ (hr.afterUnit_input hp) hk]
    exact h.output k hk
  elsewhere a ha := by
    refine (h.elsewhere a ha).trans (afterUnit_read_other ?_)
    rw [Bool.eq_false_iff, Ne, inOutputRange_iff] at ha
    have hfit := hr.unit_fits hp
    unfold outputAddr
    omega

theorem runEnd_afterUnit {s : State} (hr : s.RunWellFormed) (hp : s.pos ≠ s.len) (m : Memory) :
    s.afterUnit.runEnd m = s.runEnd m := by
  rw [State.runEnd, State.runEnd, ← accAfter_congr s.rkind (hr.afterUnit_input hp) le_rfl]
  rfl

/-- With POS = LEN the progress is all there is to do. -/
theorem State.Progress.runMemory {s : State} (h : s.Progress) (hp : s.pos = s.len) : s.RunMemory s.mem := by
  obtain ⟨-, hbytes⟩ := h
  rw [hp] at hbytes
  exact ⟨hbytes, fun _ _ => rfl⟩

theorem State.Progress.finishRun_eq {s : State} (h : s.Progress) (hp : s.pos = s.len) :
    finishRun s = s.runEnd s.mem := by
  obtain ⟨hacc, -⟩ := h
  rw [hp] at hacc
  simp only [State.runEnd, finishRun, hacc, hp]

/-- The rest of a run from `m` samples before LEN, by induction on `m`: its units one after the other, then the finish
step. -/
theorem run_completes (m : Nat) : ∀ {s : State}, s.Inv → s.status.busy = true → s.turns = [] → s.noBusErrors →
    s.Progress → s.len.toNat - s.pos.toNat = m →
    ∃ mem, stepMany (seqSteps s.rkind m) s = .next (s.runEnd mem) ∧ s.RunMemory mem := by
  induction m using Nat.strong_induction_on with
  | _ m ih =>
    intro s hi hb ht hn hprog hm
    have hr := hi.runWellFormed hb
    by_cases hp : s.pos = s.len
    · refine ⟨s.mem, ?_, hprog.runMemory hp⟩
      have hlast : seqSteps s.rkind m = 0 + 1 := by
        rw [← hm, hp, Nat.sub_self]
        cases s.rkind <;> rfl
      rw [hlast, stepMany_succ ((step_busy ht hb).trans (seqStep_finish hb hp)), hprog.finishRun_eq hp]
      rfl
    · have hstep := hi.step_afterUnit hb ht hn hp
      have hpos := hr.afterUnit_pos hp
      have hfit := hr.unit_fits hp
      have hlen := unitLength_pos s
      have hleft : s.afterUnit.len.toNat - s.afterUnit.pos.toNat = s.len.toNat - (s.pos.toNat + s.unitLength) := by
        rw [hpos]; rfl
      obtain ⟨mem, hmany, hmem⟩ := ih _ (by omega) (invariantIsKeptByEveryStep s _ hi hstep) hb ht hn
        (hprog.afterUnit hi hb hp) hleft
      refine ⟨mem, ?_, hmem.of_afterUnit hr hp⟩
      rw [← hm, seqSteps_unit hr hp, stepMany_succ hstep, ← runEnd_afterUnit hr hp]
      exact hmany

/-! ### The contract -/

/-- A command that is accepted runs to its end. -/
theorem stream_completes {kind : RunKind} {s : State} (hi : s.Inv) (hb : s.status.busy = false) (hn : s.noBusErrors)
    (ht : s.turns = []) (hv : kind = .run4 → s.capVec = true) (hc : acceptCheck kind s = none) :
    ∃ mem, stepMany (seqSteps kind s.len.toNat) (acceptStream kind s) = .next ((acceptStream kind s).runEnd mem) ∧
      (acceptStream kind s).RunMemory mem :=
  run_completes s.len.toNat (CommandEffect.inv (.accepted kind hb hc hv) hi) rfl ht hn (acceptStream_progress kind s) rfl

/-- The state after an accepted command has run: what the command does not write is as it was before it. -/
theorem acceptStream_runEnd {kind : RunKind} {s : State} (hb : s.status.busy = false) (mem : Memory) :
    (acceptStream kind s).runEnd mem = { s with
      acc := accAfter kind s.input s.len.toNat s.len.toNat, pos := s.len, rkind := kind, mem := mem,
      status := { s.status with done := true }, openRuns := ⟨s.src, s.dst, s.len⟩ :: s.openRuns } := by
  have hstatus : s.status.start.finish = { s.status with done := true } := by
    rw [Status.finish, Status.start, ← hb]
  rw [← hstatus]
  rfl

/-- Settles O27: acceptance, then the units of the run and its finish step. -/
theorem streamContract : Obligations.StreamContract := by
  intro kind s hi hb hn ht hv hc
  obtain ⟨mem, hmany, hmem⟩ := stream_completes hi hb hn ht hv hc
  refine ⟨_, _, exec_accepted hb hv hc, hmany, acceptStream_runEnd hb mem, hmem.output, fun a ha => ?_⟩
  refine hmem.elsewhere a ?_
  rw [Bool.eq_false_iff, Ne, inOutputRange_iff]
  exact ha

/-- Settles O30: by the contract ACC, POS and the bytes are those of the running sums, and the running sums those of the
input. -/
theorem runsReadNothingLeftBehind : Obligations.RunsReadNothingLeftBehind := by
  intro kind s s' t t' u u' hi hi' hb hb' hn hn' hts hts' hv hc hc' hcfg hlen hinput ht ht' hu hu'
  obtain ⟨s0, v, he, hrun, hend, hbytes, -⟩ := streamContract kind s hi hb hn hts (fun hk => (hv hk).1) hc
  obtain ⟨s0', v', he', hrun', hend', hbytes', -⟩ := streamContract kind s' hi' hb' hn' hts' (fun hk => (hv hk).2) hc'
  obtain rfl : s0 = t := Host.Outcome.next.inj (he.symm.trans ht)
  obtain rfl : s0' = t' := Host.Outcome.next.inj (he'.symm.trans ht')
  obtain rfl : v = u := Host.Outcome.next.inj (hrun.symm.trans hu)
  rw [← hlen] at hrun' hend' hbytes'
  obtain rfl : v' = u' := Host.Outcome.next.inj (hrun'.symm.trans hu')
  refine ⟨?_, ?_, fun k hk => ?_⟩
  · rw [hend, hend']
    exact accAfter_congr kind hinput le_rfl
  · rw [hend, hend']
  · rw [hbytes k hk, hbytes' k hk, hcfg, runningSum_congr kind hinput hk]

end Sys2Proof.Machine
end

section
/-! PROOFS. Errors (60_exceptions R200 to R209): the latch and its clearing, which words and which stream commands raise
an error, that a latched error blocks no command, and what keeps it latched. -/

namespace Sys2Proof.Machine

open Sys2Proof

/-! ### The latch -/

/-- What a latch leaves in STATUS: ERR set, and the code that was there first (60_exceptions R204). -/
theorem Status.latch_eq (e : ErrCode) (t : Status) :
    t.latch e = { t with err := true, ecode := if t.err then t.ecode else e } := by
  cases h : t.err with
  | true => rw [Status.latch_of_err e t h, if_pos rfl, ← h]
  | false => rw [Status.latch, h]; rfl

/-- Settles O19: after a latch ERR is set, so a second one records nothing, and bit 2 clears ERR and ECODE. -/
theorem firstErrorIsSticky : Obligations.FirstErrorIsSticky := by
  intro e s
  refine ⟨?latch, fun e' => ?again, fun d hd => ⟨?err, ?ecode⟩⟩
  case latch => unfold latchError Status.latch; split <;> rfl
  case again => rw [latchError, latchError_status, Status.latch_of_err _ _ (Status.latch_err e s.status)]; rfl
  case err => rw [writeStatus_status, Status.writeOneToClear_err, hd, Bool.not_true, Bool.and_false]
  case ecode => rw [writeStatus_status, Status.writeOneToClear_ecode, if_pos hd]

/-! ### Illegal words -/

/-- The match values are the words below 8 (30_encoding R82). -/
theorem exists_encode_iff {w : Word} : (∃ i, w = encode i) ↔ w.toNat < 8 := by
  constructor
  · rintro ⟨i, rfl⟩
    cases i <;> decide
  · intro h
    have named : ∀ k : Fin 8, ∃ i, BitVec.ofNat 32 k = encode i := fun k =>
      match k with
      | 0 => ⟨.nop, rfl⟩
      | 1 => ⟨.clr, rfl⟩
      | 2 => ⟨.step1, rfl⟩
      | 3 => ⟨.step4, rfl⟩
      | 4 => ⟨.cvt1, rfl⟩
      | 5 => ⟨.cvt4, rfl⟩
      | 6 => ⟨.run1, rfl⟩
      | 7 => ⟨.run4, rfl⟩
    simpa using named ⟨w.toNat, h⟩

/-- The match values of the 4-wide commands are 3, 5 and 7 (30_encoding R82). -/
theorem wellFormed_iff_toNat {vec : Bool} {i : Instr} :
    i.wellFormed vec = true ↔
      ((encode i).toNat = 3 ∨ (encode i).toNat = 5 ∨ (encode i).toNat = 7 → vec = true) := by
  cases i <;> simp [Instr.wellFormed, encode]

/-- The legal words of a build (30_encoding R83). -/
theorem exists_decode_ok_iff {vec : Bool} {w : Word} :
    (∃ i, decode vec w = .ok i) ↔
      w.toNat < 8 ∧ (w.toNat = 3 ∨ w.toNat = 5 ∨ w.toNat = 7 → vec = true) := by
  simp only [decode_eq_ok_iff]
  constructor
  · rintro ⟨i, rfl, hwf⟩
    exact ⟨exists_encode_iff.1 ⟨i, rfl⟩, wellFormed_iff_toNat.1 hwf⟩
  · rintro ⟨hlt, hvec⟩
    obtain ⟨i, rfl⟩ := exists_encode_iff.2 hlt
    exact ⟨i, rfl, wellFormed_iff_toNat.2 hvec⟩

/-- `decode` is total: a word is illegal exactly when it is no command (30_encoding R85). -/
theorem exists_decode_error_iff {vec : Bool} {w : Word} :
    (∃ e, decode vec w = .error e) ↔ ¬∃ i, decode vec w = .ok i := by
  cases decode vec w <;> simp

/-- An illegal word written to CMD raises ILLEGAL while BUSY = 0 (60_exceptions R202). -/
theorem issueWord_illegal {w : Word} {s : State} (hd : ∃ e, decode s.capVec w = .error e)
    (hb : s.status.busy = false) : issueWord w s = .next (latchError .illegal s) := by
  obtain ⟨e, he⟩ := hd
  rw [issueWord, he]
  exact whenIdle_idle hb _

/-- Settles O4: the legal words are those below 8 that the build has; any other is rejected or, with BUSY = 1, ignored. -/
theorem illegalWordsRaiseIllegalWhenIdle : Obligations.IllegalWordsRaiseIllegalWhenIdle := by
  intro s w
  refine ⟨?which, fun hd hb => ?idle, fun _ hb => ?busy⟩
  case which =>
    rw [exists_decode_error_iff, exists_decode_ok_iff]
    cases s.capVec with
    | true => simp only [implies_true, and_true, Bool.true_eq_false, and_false, or_false]; omega
    | false => simp only [Bool.false_eq_true, imp_false, and_true]; omega
  case idle => exact (hostOp_wr_cmd w s).trans (issueWord_illegal hd hb)
  case busy => exact (hostOp_wr_cmd w s).trans (issueWord_busy hb w)

/-! ### Rejected stream commands -/

section
variable {kind : RunKind} {s : State}

theorem acceptCheck_align (halign : s.src.toNat % kind.alignment ≠ 0) : acceptCheck kind s = some .align :=
  if_pos halign

theorem acceptCheck_range (halign : s.src.toNat % kind.alignment = 0)
    (hfits : ¬(s.src.toNat + 4 * s.len.toNat ≤ 2 ^ 32 ∧ s.dst.toNat + s.len.toNat ≤ 2 ^ 32)) :
    acceptCheck kind s = some .range := by
  rw [acceptCheck, if_neg (not_not.2 halign), if_pos (by omega)]

theorem acceptCheck_overlap (halign : s.src.toNat % kind.alignment = 0)
    (hfits : s.src.toNat + 4 * s.len.toNat ≤ 2 ^ 32 ∧ s.dst.toNat + s.len.toNat ≤ 2 ^ 32)
    (hover : s.len.toNat > 0 ∧ s.src.toNat < s.dst.toNat + s.len.toNat ∧
      s.dst.toNat < s.src.toNat + 4 * s.len.toNat) : acceptCheck kind s = some .overlap := by
  rw [acceptCheck, if_neg (not_not.2 halign), if_neg (by omega), if_pos hover]

/-- A stream command that fails a check is rejected with its code (42_stream R171, 60_exceptions R203). -/
theorem exec_rejected {e : ErrCode} (hb : s.status.busy = false) (hv : ¬(kind = .run4 ∧ s.capVec = false))
    (hc : acceptCheck kind s = some e) : exec kind.instr s = .next (latchError e s) := by
  have hreject : issueStream kind s = latchError e s := by rw [issueStream, hc]
  rw [← hreject]
  cases kind with
  | run1 => exact exec_run1 hb
  | run4 => exact exec_run4 hb (by simpa using hv)

end

/-- Settles O21: each clause is the first check that fails, and the latch writes ERR and ECODE only. -/
theorem streamCommandsAreRejectedInOrder : Obligations.StreamCommandsAreRejectedInOrder := by
  intro kind s hb aligned fits overlap
  have haligned : aligned ↔ s.src.toNat % kind.alignment = 0 := by
    cases kind <;> exact Iff.rfl
  simp only [haligned]
  refine ⟨?vector, fun hv ha => exec_rejected hb hv (acceptCheck_align ha),
    fun hv ha hf => exec_rejected hb hv (acceptCheck_range ha hf),
    fun hv ha hf ho => exec_rejected hb hv (acceptCheck_overlap ha hf ho), fun e => ?latch⟩
  case vector =>
    rintro ⟨rfl, hv⟩
    exact exec_vectorAbsent hb hv (.inr (.inr rfl))
  case latch => exact ⟨Status.latch_busy e s.status, Status.latch_done e s.status, rfl, rfl, rfl, rfl⟩

/-! ### A latched error blocks no command -/

/-- The state with other values of ERR and ECODE. -/
def State.withError (s : State) (e : Bool) (c : ErrCode) : State :=
  { s with status := { s.status with err := e, ecode := c } }

/-- Both answer a next state, and the two are alike but for ERR and ECODE. -/
def SameButError (r r' : Result) : Prop := ∃ t e c, r = .next t ∧ r' = .next (State.withError t e c)

/-- Two states alike but for ERR and ECODE are so after a latch. -/
theorem latchError_withError (k : ErrCode) (s : State) (e : Bool) (c : ErrCode) :
    latchError k (s.withError e c) = (latchError k s).withError true (if e then c else k) := by
  simp only [latchError, State.withError, Status.latch_eq]

/-- The acceptance checks do not read STATUS, so a stream command has the same fate (60_exceptions R209). -/
theorem issueStream_withError (kind : RunKind) (s : State) (e : Bool) (c : ErrCode) :
    ∃ e' c', issueStream kind (s.withError e c) = (issueStream kind s).withError e' c' := by
  have hcheck : acceptCheck kind (s.withError e c) = acceptCheck kind s := rfl
  unfold issueStream
  rw [hcheck]
  cases acceptCheck kind s with
  | some k => exact ⟨_, _, latchError_withError k s e c⟩
  | none => exact ⟨e, c, rfl⟩

/-- No command reads ERR or ECODE but to latch an error of its own (60_exceptions R209). -/
theorem exec_sameButError (i : Instr) (s : State) (e : Bool) (c : ErrCode) :
    SameButError (exec i s) (exec i (s.withError e c)) := by
  cases hb : s.status.busy with
  | true => exact ⟨_, e, c, exec_busy i hb, exec_busy (s := s.withError e c) i hb⟩
  | false =>
    have hb' : (s.withError e c).status.busy = false := hb
    have stream {kind : RunKind}
        (hk : ∀ {u : State}, u.status.busy = false → u.capVec = s.capVec → exec i u = .next (issueStream kind u)) :
        SameButError (exec i s) (exec i (s.withError e c)) := by
      obtain ⟨e', c', h⟩ := issueStream_withError kind s e c
      exact ⟨_, e', c', hk hb rfl, h ▸ hk hb' rfl⟩
    have vec (hi : i = .step4 ∨ i = .cvt4 ∨ i = .run4)
        (hk : s.capVec = true → SameButError (exec i s) (exec i (s.withError e c))) :
        SameButError (exec i s) (exec i (s.withError e c)) := by
      cases hv : s.capVec with
      | true => exact hk hv
      | false =>
        exact ⟨_, _, _, exec_vectorAbsent hb hv hi, latchError_withError _ s e c ▸ exec_vectorAbsent hb' hv hi⟩
    cases i with
    | nop => exact ⟨_, e, c, exec_nop hb, exec_nop hb'⟩
    | clr => exact ⟨_, e, c, exec_clr hb, exec_clr hb'⟩
    | step1 => exact ⟨_, e, c, exec_step1 hb, exec_step1 hb'⟩
    | cvt1 => exact ⟨_, e, c, exec_cvt1 hb, exec_cvt1 hb'⟩
    | run1 => exact stream fun hu _ => exec_run1 hu
    | step4 => exact vec (by simp) fun hv => ⟨_, e, c, exec_step4 hb hv, exec_step4 hb' hv⟩
    | cvt4 => exact vec (by simp) fun hv => ⟨_, e, c, exec_cvt4 hb hv, exec_cvt4 hb' hv⟩
    | run4 => exact vec (by simp) fun hv => stream fun hu hcap => exec_run4 hu (hcap.trans hv)

/-- Settles O17: the two next states are alike but for ERR and ECODE. -/
theorem latchedErrorBlocksNoCommand : Obligations.LatchedErrorBlocksNoCommand := by
  intro i s e c
  obtain ⟨t, e', c', ht, ht'⟩ := exec_sameButError i s e c
  exact ⟨t, t.withError e' c', ht, ht', rfl⟩

/-! ### What keeps an error latched -/

/-- After `s` an error is latched, with the code it has in `s`. -/
def State.KeepsError (s t : State) : Prop := t.status.err = true ∧ t.status.ecode = s.status.ecode

theorem State.KeepsError.of_status {s t : State} (he : s.status.err = true) (h : t.status = s.status) :
    s.KeepsError t := ⟨h ▸ he, congrArg Status.ecode h⟩

/-- A command can only latch a further error, which is not recorded (60_exceptions R204). -/
theorem CommandEffect.keepsError {s t : State} (h : CommandEffect s t) (he : s.status.err = true) :
    s.KeepsError t := by
  cases h with
  | rejected k => exact .of_status he (Status.latch_of_err k _ he)
  | _ => exact ⟨he, rfl⟩

/-- A bus error after another error is not recorded (60_exceptions R204). -/
theorem endWithBusError_ecode {s : State} (he : s.status.err = true) (addr : Nat) (dir : Dir) :
    (endWithBusError addr dir s).status.ecode = s.status.ecode := by
  cases dir <;> simp [he]

/-- SEQ can only latch a bus error, which is not recorded (60_exceptions R204, R205). -/
theorem SeqEffect.keepsError {s t : State} (h : SeqEffect s t) (he : s.status.err = true) : s.KeepsError t := by
  cases h with
  | busError addr dir =>
    obtain ⟨-, -, herr⟩ := endWithBusError_ends addr dir s
    exact ⟨herr, endWithBusError_ecode he addr dir⟩
  | _ => exact ⟨he, rfl⟩

/-- Reset and register writes apart, no host operation changes STATUS. -/
theorem hostOp_next_status {op : HostOp} {s t : State} (h : hostOp op s = .next t) :
    op = .reset ∨ (∃ off d, op = .wr off 4 d ∧ hostWrite off d s = .next t) ∨ t.status = s.status := by
  cases op with
  | reset => exact .inl rfl
  | wr off size d =>
    obtain ⟨rfl, hk⟩ := registerAccess_next h
    exact .inr (.inl ⟨off, d, rfl, hk⟩)
  | rd off size =>
    obtain ⟨-, hk⟩ := registerAccess_next h
    exact .inr (.inr (Host.Outcome.next.inj hk ▸ rfl))
  | poll off lo width v =>
    obtain ⟨-, hk⟩ := registerAccess_next h
    rw [hostPoll_eq] at hk
    exact .inr (.inr (Host.Outcome.next.inj hk ▸ rfl))
  | memRd addr =>
    by_cases hout : racesOutput s addr.toNat = true
    · rw [hostOp_memRd_race hout] at h
      cases h
    · rw [hostOp_memRd_performs hout] at h
      exact .inr (.inr (Host.Outcome.next.inj h ▸ rfl))
  | memWr addr b =>
    by_cases hin : racesInput s addr.toNat = true
    · rw [hostOp_memWr_raceInput hin] at h
      cases h
    · by_cases hout : racesOutput s addr.toNat = true
      · rw [hostOp_memWr_raceOutput hin hout] at h
        cases h
      · rw [hostOp_memWr_performs hin hout] at h
        exact .inr (.inr (Host.Outcome.next.inj h ▸ rfl))

/-- A write to STATUS clears the error only by bit 2 (10_state R39). -/
theorem writeStatus_keepsError {d : Word} {s : State} (he : s.status.err = true) (hd : d.getLsbD 2 = false) :
    s.KeepsError (writeStatus d s) := by
  rw [State.KeepsError, writeStatus_status, Status.writeOneToClear_err, Status.writeOneToClear_ecode, he, hd]
  exact ⟨rfl, rfl⟩

/-- Of the register writes only one to STATUS with bit 2 set clears an error. -/
theorem hostWrite_keepsError {off : Byte} {d : Word} {s t : State} (h : hostWrite off d s = .next t)
    (he : s.status.err = true) : s.KeepsError t ∨ off = Reg.status.offset ∧ d.getLsbD 2 = true := by
  unfold hostWrite at h
  split at h
  · injection h with h
    exact .inl (.of_status he (h ▸ rfl))
  · exact .inl ((issueWord_next_effect h).keepsError he)
  · rename_i r _ hr
    injection h with h
    subst h
    split
    · exact .inl ⟨he, rfl⟩
    · by_cases hstatus : r = .status
      · subst hstatus
        cases hd : d.getLsbD 2 with
        | true => exact .inr ⟨offset_of_atOffset hr, rfl⟩
        | false => exact .inl (writeStatus_keepsError he hd)
      · exact .inl (.of_status he (writeRegister_status hstatus d s))

/-- Settles O52: SEQ and the commands only latch, and of the host's other operations only two write ERR or ECODE. -/
theorem errorsClearOnlyByHostOrReset : Obligations.ErrorsClearOnlyByHostOrReset := by
  intro s t h he
  rcases step_next_cases h with ⟨ts, ops, hseq⟩ | ⟨ts, rfl⟩ | ⟨op, ts, ops, hop, ho⟩
  · exact .inl (hseq.keepsError he)
  · exact .inl ⟨he, rfl⟩
  · rcases hostOp_next_status ho with rfl | ⟨off, d, rfl, hw⟩ | hsame
    · exact .inr (.inl ⟨ops, hop⟩)
    · rcases hostWrite_keepsError hw he with hkept | ⟨rfl, hd⟩
      · exact .inl hkept
      · exact .inr (.inr ⟨d, ops, hop, hd⟩)
    · exact .inl (State.KeepsError.of_status (s := s) he hsame)

end Sys2Proof.Machine
end

section
/-! PROOFS. Reset and hazards (70_reset_and_hazards): reset sets every register and meets the invariant, and which steps
open and close the window of the races. -/

namespace Sys2Proof.Machine

open Sys2Proof

/-! ### Reset -/

/-- Settles O40: reset's one effect is `resetBlock`, whatever state it finds. -/
theorem resetSetsEveryRegister : Obligations.ResetSetsEveryRegister :=
  fun _ => rfl

/-- Settles O55: after reset BUSY = 0, so memory, which is empty, and STATUS are all the invariant speaks of. -/
theorem resetMeetsTheInvariant : Obligations.ResetMeetsTheInvariant :=
  .of_idle rfl Status.wellFormed_reset rfl

/-! ### The window over a command -/

/-- Only acceptance raises BUSY, and it opens the window of the command's buffers (70_reset R236). -/
theorem CommandEffect.opens_window {s t : State} (h : CommandEffect s t) (hb : s.status.busy = false)
    (ht : t.status.busy = true) : t.openRuns = s.buffers :: s.openRuns := by
  cases h with
  | accepted => rfl
  | ignored hr => simp [hb] at hr
  | rejected => simp [hb] at ht
  | registerStep => simp [hb] at ht

theorem CommandEffect.keeps_windows {s t : State} (h : CommandEffect s t)
    (hrise : ¬(s.status.busy = false ∧ t.status.busy = true)) : t.openRuns = s.openRuns := by
  cases h with
  | accepted kind hb => exact absurd ⟨hb, rfl⟩ hrise
  | _ => rfl

/-! ### The windows over a host operation -/

/-- A register read keeps the windows, or is a read of STATUS that returns BUSY = 0 and closes them (70_reset R236). -/
theorem openAfterRead_keeps_or_closes (off : Byte) (s : State) :
    (off = Reg.status.offset ∧ s.status.busy = false ∧ openAfterRead off s = []) ∨
      openAfterRead off s = s.openRuns := by
  by_cases hread : off = Reg.status.offset ∧ s.status.busy = false
  · exact .inl ⟨hread.1, hread.2, if_pos hread⟩
  · exact .inr (if_neg hread)

theorem writeRegister_openRuns (r : Reg) (d : Word) (s : State) : (writeRegister r d s).openRuns = s.openRuns := by
  cases r <;> rfl

/-- A register write touches the windows only as a command issued through CMD. -/
theorem hostWrite_next_openRuns {off : Byte} {d : Word} {s t : State} (h : hostWrite off d s = .next t) :
    CommandEffect s t ∨ t.openRuns = s.openRuns := by
  unfold hostWrite at h
  split at h
  · exact .inr (Host.Outcome.next.inj h ▸ rfl)
  · exact .inl (issueWord_next_effect h)
  · rw [← Host.Outcome.next.inj h]
    split
    · exact .inr rfl
    · exact .inr (writeRegister_openRuns _ d s)

/-- A host read of memory that goes on is noted, and that is all. -/
theorem hostOp_memRd_next {addr : Word} {s t : State} (h : hostOp (.memRd addr) s = .next t) :
    t = { s with reads := .mem addr (s.mem.read addr.toNat) :: s.reads } := by
  by_cases hout : racesOutput s addr.toNat = true
  · cases (hostOp_memRd_race hout).symm.trans h
  · exact (Host.Outcome.next.inj ((hostOp_memRd_performs hout).symm.trans h)).symm

/-- A host write of memory that goes on writes its byte, and that is all. -/
theorem hostOp_memWr_next {addr : Word} {b : Byte} {s t : State} (h : hostOp (.memWr addr b) s = .next t) :
    t = { s with mem := s.mem.write addr.toNat b } := by
  by_cases hin : racesInput s addr.toNat = true
  · cases (hostOp_memWr_raceInput hin b).symm.trans h
  · by_cases hout : racesOutput s addr.toNat = true
    · cases (hostOp_memWr_raceOutput hin hout b).symm.trans h
    · exact (Host.Outcome.next.inj ((hostOp_memWr_performs hin hout b).symm.trans h)).symm

/-- A read or a poll of STATUS. -/
def HostOp.ReadsStatus (op : HostOp) : Prop :=
  op = .rd Reg.status.offset 4 ∨ ∃ lo width v, op = .poll Reg.status.offset lo width v

/-- Commands apart, the host changes the windows only by a read or a poll of STATUS with BUSY = 0, which closes them all. -/
theorem hostOp_next_openRuns {op : HostOp} {s t : State} (h : hostOp op s = .next t) :
    CommandEffect s t ∨ (op.ReadsStatus ∧ s.status.busy = false ∧ t.openRuns = []) ∨ t.openRuns = s.openRuns := by
  cases op with
  | rd off size =>
    obtain ⟨rfl, hk⟩ := registerAccess_next h
    obtain rfl := Host.Outcome.next.inj hk
    exact .inr ((openAfterRead_keeps_or_closes off s).imp_left
      fun ⟨hoff, hclosed⟩ => ⟨hoff ▸ .inl rfl, hclosed⟩)
  | poll off lo width v =>
    obtain ⟨-, hk⟩ := registerAccess_next h
    obtain rfl := Host.Outcome.next.inj ((hostPoll_eq off lo width v s).symm.trans hk)
    exact .inr ((openAfterRead_keeps_or_closes off s).imp_left
      fun ⟨hoff, hclosed⟩ => ⟨hoff ▸ .inr ⟨lo, width, v, rfl⟩, hclosed⟩)
  | wr off size d =>
    obtain ⟨-, hk⟩ := registerAccess_next h
    exact (hostWrite_next_openRuns hk).imp_right .inr
  | memRd addr => exact .inr (.inr (hostOp_memRd_next h ▸ rfl))
  | memWr addr b => exact .inr (.inr (hostOp_memWr_next h ▸ rfl))
  | reset => exact .inr (.inr (Host.Outcome.next.inj h ▸ rfl))

/-! ### The windows over a step -/

theorem SeqEffect.openRuns {s t : State} (h : SeqEffect s t) : t.openRuns = s.openRuns := by
  cases h <;> rfl

/-- A step that raises BUSY accepts a stream command, whose window it opens. -/
theorem step_opens_window {s t : State} (h : step s = .next t) (hb : s.status.busy = false)
    (ht : t.status.busy = true) : t.openRuns = s.buffers :: s.openRuns := by
  have stays (hf : t.status.busy = s.status.busy) : False := by simp [hb, ht] at hf
  rcases step_next_cases h with ⟨ts, ops, he⟩ | ⟨ts, rfl⟩ | ⟨op, ts, ops, -, ho⟩
  · exact (stays ((he.not_raises_busy hb).trans hb.symm)).elim
  · exact (stays rfl).elim
  · rcases hostOp_next_cases ho with ⟨-, rfl⟩ | ⟨w, -, hw⟩ | ⟨-, hsame⟩
    · cases ht
    · exact (issueWord_next_effect hw).opens_window hb ht
    · exact (stays hsame).elim

/-- A step that changes the windows without raising BUSY is the host's read or poll of STATUS with BUSY = 0. -/
theorem step_closes_windows {s t : State} (h : step s = .next t)
    (hrise : ¬(s.status.busy = false ∧ t.status.busy = true)) (hne : t.openRuns ≠ s.openRuns) :
    s.status.busy = false ∧ t.openRuns = [] ∧ ∃ op ops, s.hostProg = op :: ops ∧ op.ReadsStatus := by
  rcases step_next_cases h with ⟨ts, ops, he⟩ | ⟨ts, rfl⟩ | ⟨op, ts, ops, hop, ho⟩
  · exact absurd he.openRuns hne
  · exact absurd rfl hne
  · rcases hostOp_next_openRuns ho with hc | ⟨hread, hb, hclosed⟩ | hsame
    · exact absurd (hc.keeps_windows hrise) hne
    · exact ⟨hb, hclosed, op, ops, hop, hread⟩
    · exact absurd hsame hne

/-- Settles O48: acceptance is the one step that opens a window, a STATUS read with BUSY = 0 the one that closes any. -/
theorem raceWindowRunsFromAcceptanceToTheStatusRead : Obligations.RaceWindowRunsFromAcceptanceToTheStatusRead := by
  intro s t h
  refine ⟨step_opens_window h, fun hrise hne => ?_⟩
  obtain ⟨hb, hclosed, op, ops, hop, rfl | ⟨lo, width, v, rfl⟩⟩ := step_closes_windows h hrise hne
  · exact ⟨hb, hclosed, ops, .inl hop⟩
  · exact ⟨hb, hclosed, ops, .inr ⟨lo, width, v, hop⟩⟩

end Sys2Proof.Machine
end
